-- ==== Sys2Proof/Word.lean ====
section
/-! DEFINITION. The word types of the block: 8-bit elements (R6 `UNIT_WIDTH`) and the 32-bit accumulator (R6 `ACC_WIDTH`), with the two narrowings every rule uses. -/

namespace Sys2Proof

/-- One input or output element: a data byte or the 8-bit code of a character (R6, R34). -/
abbrev Byte := BitVec 8

/-- A 32-bit unsigned value, the width of a unit's accumulator (R6, R9). -/
abbrev U32 := BitVec 32

/-- `wrap32(v) = v mod 2^32` (R9). -/
def wrap32 (v : Nat) : U32 := BitVec.ofNat 32 v

/-- The low 8 bits of a natural number, as one element. -/
def byteOf (v : Nat) : Byte := BitVec.ofNat 8 v

end Sys2Proof
end

