-- ==== Sys2Proof/Syntax.lean ====
section
/-! DEFINITION. The instructions: one constructor for each of the three legal commands (R57), and the command tuple a host hands to the block (R52). -/

namespace Sys2Proof

/-- The command tuple `(tid, CMD, LEN, IN)` as the host issues it, legal or not (R52). -/
structure Command where
  /-- the command's identity, which the block never interprets (R52) -/
  tid : Nat
  /-- the 8-bit command word (R53) -/
  cmd : Byte
  /-- LEN, the number of elements, unbounded (R59) -/
  len : Nat
  /-- the bytes the host supplies as the IN buffer (R34) -/
  input : List Byte
  deriving DecidableEq, Repr

/-- A legal command: one constructor per row of the opcode table, with the operands of R52 that the
command word does not fix. -/
inductive Instr where
  /-- ENCODE, CMD = 0x01 (R79) -/
  | encode (tid len : Nat) (input : List Byte)
  /-- DECODE, CMD = 0x02, permissive (R95) -/
  | decode (tid len : Nat) (input : List Byte)
  /-- DECODE.S, CMD = 0x06, strict (R96) -/
  | decodeS (tid len : Nat) (input : List Byte)
  deriving DecidableEq, Repr

/-- The identity operand of a command (R52). -/
def Instr.tid : Instr → Nat
  | .encode t _ _ => t
  | .decode t _ _ => t
  | .decodeS t _ _ => t

/-- The LEN operand of a command (R59). -/
def Instr.len : Instr → Nat
  | .encode _ n _ => n
  | .decode _ n _ => n
  | .decodeS _ n _ => n

/-- The IN operand of a command (R34). -/
def Instr.input : Instr → List Byte
  | .encode _ _ b => b
  | .decode _ _ b => b
  | .decodeS _ _ b => b

end Sys2Proof
end

