-- ==== Sys2Proof/WellFormed.lean ====
section
/-! DEFINITION. When a command is well formed: the host supplies exactly LEN elements (R59, R131). A length that is no multiple of the group size is well formed: the block answers it with ERR_LENGTH (R111). -/

namespace Sys2Proof

/-- "The host must supply exactly `LEN` readable elements in `IN`" (R59). -/
abbrev Instr.WellFormed (i : Instr) : Prop := i.input.length = i.len

/-- The same duty of the host, on the raw tuple (R59). -/
abbrev Command.WellFormed (c : Command) : Prop := c.input.length = c.len

end Sys2Proof
end

