-- ==== Sys2Proof/Decode.lean ====
section
/-! DEFINITION. The dispatcher's decoder of command words (R53 to R58), total on every command tuple, refusing an illegal word by the reason it is illegal; then the encoder, from the same table. -/

namespace Sys2Proof

/-- Why a command word is illegal (R58). -/
inductive IllegalWord where
  /-- some RSV bit is set (R56) -/
  | reservedBits
  /-- OP is 0b00 or 0b11 (R54) -/
  | reservedOp
  /-- OP = 0b01 with STRICT = 1, the word 0x05 (R55) -/
  | strictEncode
  deriving DecidableEq, Repr

/-- `CMD[1:0]`, the field OP (R53). -/
def opField (w : Byte) : BitVec 2 := w.extractLsb' 0 2

/-- `CMD[2]`, the field STRICT (R53). -/
def strictField (w : Byte) : Bool := w.getLsbD 2

/-- `CMD[7:3]`, the field RSV (R53). -/
def rsvField (w : Byte) : BitVec 5 := w.extractLsb' 3 5

/-- What an operation of the opcode table is, before its operands are attached (R57). -/
inductive Op where
  | encode
  | decode
  | decodeS
  deriving DecidableEq, Repr

/-- The command word decoded by its three fields (R53 to R58). -/
def decodeWord (w : Byte) : Except IllegalWord Op :=
  if rsvField w ≠ 0 then .error .reservedBits
  else if opField w = 0b01#2 then
    if strictField w then .error .strictEncode else .ok .encode
  else if opField w = 0b10#2 then
    if strictField w then .ok .decodeS else .ok .decode
  else .error .reservedOp

/-- The instruction an operation and a command's operands make (R52, R57). -/
def Op.instr (o : Op) (c : Command) : Instr :=
  match o with
  | .encode => .encode c.tid c.len c.input
  | .decode => .decode c.tid c.len c.input
  | .decodeS => .decodeS c.tid c.len c.input

/-- The dispatcher's decoder of a whole command tuple (R52, R64): only the command word decides. -/
def decode (c : Command) : Except IllegalWord Instr :=
  match decodeWord c.cmd with
  | .ok o => .ok (o.instr c)
  | .error e => .error e

/-- The command word of each operation (R57). -/
def opcode : Instr → Byte
  | .encode _ _ _ => 0x01#8
  | .decode _ _ _ => 0x02#8
  | .decodeS _ _ _ => 0x06#8

/-- The encoding of a command: "the CMD byte, the number LEN, then the IN bytes", with its `tid` (R67). -/
def encode (i : Instr) : Command :=
  { tid := i.tid, cmd := opcode i, len := i.len, input := i.input }

/-- The command tuple of a table word: the 8 bits of the row are CMD, and every later part of the
command (tid, LEN, IN) is zero or empty. -/
def commandOfTableWord (nbits w : Nat) : Command :=
  { tid := 0, cmd := BitVec.ofNat 8 (w % 2 ^ nbits), len := 0, input := [] }

/-- The instruction the decoder reads from a word numbered as the opcode table numbers it. -/
def decodeTableWord (nbits w : Nat) : Option Instr :=
  match decode (commandOfTableWord nbits w) with
  | .ok i => some i
  | .error _ => none

end Sys2Proof
end

