-- ==== Sys2Proof/Config.lean ====
section
/-! DEFINITION. The parameters the spec leaves to an implementation (R6) and the free values the host or the platform supplies. A free value is opaque: no proof can see what it is. -/

namespace Sys2Proof

/-- `NUM_ENC`, "natural number ≥ 1; this spec takes 1" (R6, D2). Only the state after reset uses it:
the step works for every number of units. -/
def Config.numEnc : Nat := 1

/-- `NUM_DEC`, "natural number ≥ 1; this spec takes 1" (R6, D2). -/
def Config.numDec : Nat := 1

/-- The host's answer to the allocation request drawn as free value number `k`, for a request the
state lists no answer for: true is GRANT, false is DENY. "The model places no law on which answer
comes" (R118, U4). Log entry 5. -/
opaque Config.allocGrants : Nat → Bool

/-- Which of several IDLE units takes a command, for a choice the state lists no pick for (R64, U5).
Log entry 4. -/
opaque Config.unitChoice : Nat → Nat

/-- Which of several agents moves, when the state names none (R13, U5). Log entry 3. -/
opaque Config.turn : Nat → Nat

end Sys2Proof
end

