-- ==== Sys2Proof/Machine/State.lean ====
section
/-! DEFINITION. The state of the block (R14, R27) with the host's side of the interface as plain data (R131), the reasons a step can stop, and the state at power-up (R29, R135). -/

namespace Sys2Proof.Machine

/-- The unit state `st` (R14). The bit pattern 0b11 "is never reached" and has no constructor (U7). -/
inductive UnitSt where
  | idle
  | run
  | fault
  deriving DecidableEq, Repr

/-- The fault kind `fkind` (R14). -/
inductive FaultKind where
  | noFault
  | undefinedLookup
  deriving DecidableEq, Repr

/-- The two kinds of unit (R1, R15). -/
inductive UnitKind where
  | enc
  | dec
  deriving DecidableEq, Repr

/-- The host's answer to an allocation request (R118). -/
inductive Alloc where
  | grant
  | deny
  deriving DecidableEq, Repr

/-- The outcome code of a response (R61). Codes 5, 6 and 7 are never produced and have no
constructor (U7). -/
inductive Status where
  | ok
  | errLength
  | errAlloc
  | errChar
  | errCmd
  deriving DecidableEq, Repr

/-- The state record of one unit, exactly the ten fields of R14. -/
structure UnitRegs where
  /-- unit state -/
  st : UnitSt
  /-- identity of the command being run, meaningful in RUN and FAULT only -/
  tid : Nat
  /-- the latched command word, meaningful in RUN and FAULT only -/
  cmd : Byte
  /-- the latched LEN -/
  n : Nat
  /-- index of the next input element to read -/
  ip : Nat
  /-- index of the next output byte to write -/
  opos : Nat
  /-- number of input elements accumulated into the current group -/
  ph : BitVec 3
  /-- the group accumulator -/
  acc : U32
  /-- fault kind -/
  fkind : FaultKind
  /-- for a fault, the input index of the offending element and its code; otherwise (0, 0) -/
  finfo : Nat × Byte
  deriving DecidableEq, Repr

/-- One byte-indexed address space: its addresses are 0 to `size` − 1 (R31, R34, R35). `cells` lists
the bytes that have a value, addresses strictly rising; an unlisted address has no value (U3). -/
structure Memory where
  size : Nat
  cells : List Host.Cell
  deriving DecidableEq, Repr

/-- A unit with the two address spaces of the command it runs (R31): IN, which the host supplied,
and OUT, which the host granted. They are no part of the unit record (R25). -/
structure Lane where
  regs : UnitRegs
  inp : Memory
  out : Memory
  deriving DecidableEq, Repr

/-- The response record `(tid, STATUS, OUT_LEN, INFO)` (R60). -/
structure Response where
  tid : Nat
  status : Status
  outLen : Nat
  info : Nat
  deriving DecidableEq, Repr

/-- A response with the output buffer whose ownership it passes to the host (R35, R131). -/
structure Delivery where
  resp : Response
  out : Memory
  deriving DecidableEq, Repr

/-- The name of a unit, `ENC[i]` or `DEC[j]` (R128). -/
structure UnitId where
  kind : UnitKind
  idx : Nat
  deriving DecidableEq, Repr

/-- What the host does next (R67, R131). -/
inductive HostAct where
  /-- issue a command (R52) that the dispatcher hands over in the same turn, if a unit is IDLE -/
  | issue (c : Command)
  /-- issue a command whose hand-over is left to a later turn of the dispatcher, so that any agent may
  step in between (R13) -/
  | post (c : Command)
  /-- assert block reset (R132) -/
  | reset
  /-- read a unit's `st` (R23) -/
  | readStatus (u : UnitId)
  /-- wait for the response of a command (R67 `WAIT`) -/
  | wait (tid : Nat)
  deriving DecidableEq, Repr

/-- An agent that can take a step (R13). The dispatcher's step names the held command it hands over
by its place in `held`. -/
inductive Agent where
  | host
  | dispatcher (k : Nat)
  | unit (u : UnitId)
  deriving DecidableEq, Repr

/-- The state: the block's (R27: all unit records and the response history, with the buffers of
commands in flight and the commands held), then the host's side (log entries 2 to 6). -/
structure State where
  /-- the encoder units `ENC[0..NUM_ENC)` (R13) -/
  enc : List Lane
  /-- the decoder units `DEC[0..NUM_DEC)` (R13) -/
  dec : List Lane
  /-- the response history, oldest first (R27) -/
  responses : List Delivery
  /-- the commands issued and not yet dispatched, oldest first (R64) -/
  held : List Command
  /-- what the host does next, first act first (the model's own, log entry 2) -/
  script : List HostAct
  /-- the `st` values the host has read, oldest first (the model's own, log entry 2) -/
  polled : List (UnitId × UnitSt)
  /-- which agents move next, first agent first (the model's own, log entry 3) -/
  turns : List Agent
  /-- the choices among several IDLE units (the model's own, log entry 4) -/
  picks : List Nat
  /-- the host's answers to allocation requests, by tid (the model's own, log entry 5) -/
  answers : List (Nat × Alloc)
  /-- how many free values have been drawn (the model's own, log entry 6) -/
  draws : Nat
  deriving DecidableEq, Repr

/-- Why a step can stop. Both reasons are accesses to addresses that do not exist (R31). -/
inductive Fault where
  /-- An ACC step or a strict pre-scan reads IN at index `i`, where the host supplied no byte (it
  broke its duty of R59) or no element exists (a state no run reaches). Safe: the machine stops. -/
  | inAbsent (i : Nat)
  /-- An EMIT step writes OUT at index `i`, outside the granted buffer; only in a state no run
  reaches. Safe: the machine stops. -/
  | outAbsent (i : Nat)
  deriving DecidableEq, Repr

/-- Why a step can be refused. -/
inductive Refusal where
  /-- An instruction without a meaning, raised by an arm of exec only. Safe. No arm raises it. -/
  | notModelled (mnemonic : String)
  deriving DecidableEq, Repr

/-- No buffer: an address space with no address. -/
def Memory.absent : Memory := { size := 0, cells := [] }

/-- The reset values of a unit's record (R29); `tid` is unspecified there and 0 here (log entry 1). -/
def UnitRegs.reset : UnitRegs :=
  { st := .idle, tid := 0, cmd := 0x00#8, n := 0, ip := 0, opos := 0, ph := 0#3, acc := 0#32,
    fkind := .noFault, finfo := (0, 0x00#8) }

/-- A unit after reset: its record at R29's values, no command and so no buffers (R133). -/
def Lane.reset : Lane := { regs := .reset, inp := .absent, out := .absent }

/-- The block at power-up: every unit in the reset state, no command in flight and an empty response
history (R135). -/
def State.reset : State :=
  { enc := List.replicate Config.numEnc .reset, dec := List.replicate Config.numDec .reset,
    responses := [], held := [], script := [], polled := [], turns := [], picks := [], answers := [],
    draws := 0 }

end Sys2Proof.Machine
end

