-- ==== Sys2Proof/Machine/Tables.lean ====
section
/-! DEFINITION. The alphabet lookup memory: the two ROMs (R69, R71) and the lookups of 40_tables_lookup.md (R70, R72 to R74). The alphabet is the spec's own choice from general knowledge (G1, log entry 9). -/

namespace Sys2Proof.Machine

/-- The forward alphabet ROM, digit 0 first (R69). -/
def fwdRom : List Byte :=
    [0x30#8, 0x31#8, 0x32#8, 0x33#8, 0x34#8, 0x35#8, 0x36#8, 0x37#8, 0x38#8, 0x39#8] ++
    [0x61#8, 0x62#8, 0x63#8, 0x64#8, 0x65#8, 0x66#8, 0x67#8, 0x68#8, 0x69#8, 0x6A#8] ++
    [0x6B#8, 0x6C#8, 0x6D#8, 0x6E#8, 0x6F#8, 0x70#8, 0x71#8, 0x72#8, 0x73#8, 0x74#8] ++
    [0x75#8, 0x76#8, 0x77#8, 0x78#8, 0x79#8, 0x7A#8, 0x41#8, 0x42#8, 0x43#8, 0x44#8] ++
    [0x45#8, 0x46#8, 0x47#8, 0x48#8, 0x49#8, 0x4A#8, 0x4B#8, 0x4C#8, 0x4D#8, 0x4E#8] ++
    [0x4F#8, 0x50#8, 0x51#8, 0x52#8, 0x53#8, 0x54#8, 0x55#8, 0x56#8, 0x57#8, 0x58#8] ++
    [0x59#8, 0x5A#8, 0x2E#8, 0x2D#8, 0x3A#8, 0x2B#8, 0x3D#8, 0x5E#8, 0x21#8, 0x2F#8] ++
    [0x2A#8, 0x3F#8, 0x26#8, 0x3C#8, 0x3E#8, 0x28#8, 0x29#8, 0x5B#8, 0x5D#8, 0x7B#8] ++
    [0x7D#8, 0x40#8, 0x25#8, 0x24#8, 0x23#8]

/-- The inverse lookup ROM, code 32 first (R71); an entry's format is R65's. -/
def invRom : List Byte :=
    [0x00#8, 0xC4#8, 0x00#8, 0xD4#8, 0xD3#8, 0xD2#8, 0xC8#8, 0x00#8] ++
    [0xCB#8, 0xCC#8, 0xC6#8, 0xC1#8, 0x00#8, 0xBF#8, 0xBE#8, 0xC5#8] ++
    [0x80#8, 0x81#8, 0x82#8, 0x83#8, 0x84#8, 0x85#8, 0x86#8, 0x87#8] ++
    [0x88#8, 0x89#8, 0xC0#8, 0x00#8, 0xC9#8, 0xC2#8, 0xCA#8, 0xC7#8] ++
    [0xD1#8, 0xA4#8, 0xA5#8, 0xA6#8, 0xA7#8, 0xA8#8, 0xA9#8, 0xAA#8] ++
    [0xAB#8, 0xAC#8, 0xAD#8, 0xAE#8, 0xAF#8, 0xB0#8, 0xB1#8, 0xB2#8] ++
    [0xB3#8, 0xB4#8, 0xB5#8, 0xB6#8, 0xB7#8, 0xB8#8, 0xB9#8, 0xBA#8] ++
    [0xBB#8, 0xBC#8, 0xBD#8, 0xCD#8, 0x00#8, 0xCE#8, 0xC3#8, 0x00#8] ++
    [0x00#8, 0x8A#8, 0x8B#8, 0x8C#8, 0x8D#8, 0x8E#8, 0x8F#8, 0x90#8] ++
    [0x91#8, 0x92#8, 0x93#8, 0x94#8, 0x95#8, 0x96#8, 0x97#8, 0x98#8] ++
    [0x99#8, 0x9A#8, 0x9B#8, 0x9C#8, 0x9D#8, 0x9E#8, 0x9F#8, 0xA0#8] ++
    [0xA1#8, 0xA2#8, 0xA3#8, 0xCF#8, 0x00#8, 0xD0#8, 0x00#8, 0x00#8]

/-- "The `FWD` space has 85 entries of 8 bits" (R32). -/
theorem fwdRom_length : fwdRom.length = 85 := by decide

/-- "The `INV` space has 96 entries of 8 bits" (R33). -/
theorem invRom_length : invRom.length = 96 := by decide

/-- `FWD[d]`; a digit is below 85 by its type (R32, R70). -/
def fwd (d : Fin 85) : Byte := fwdRom[d.val]'(by rw [fwdRom_length]; exact d.isLt)

/-- `INV[a]` (R33). -/
def inv (a : Fin 96) : Byte := invRom[a.val]'(by rw [invRom_length]; exact a.isLt)

/-- The result of INV_LOOKUP (R72). -/
inductive Lookup where
  | inRange (e : Byte)
  | outOfRange
  deriving DecidableEq, Repr

/-- INV_LOOKUP: a code below 32 or above 127 has no address (R33, R72). -/
def invLookup (c : Byte) : Lookup :=
  if h : 32 ≤ c.toNat ∧ c.toNat ≤ 127 then .inRange (inv ⟨c.toNat - 32, by omega⟩)
  else .outOfRange

/-- The field DIGIT, `E[6:0]`, of an INV entry (R65). -/
def digitField (e : Byte) : Nat := (e.extractLsb' 0 7).toNat

/-- The field VALID, `E[7]`, of an INV entry (R65). -/
def validField (e : Byte) : Bool := e.getLsbD 7

/-- `digitOf(c)`: the permissive digit of a code, 0 for an unmapped code in range; no value outside
32..127 (R73). -/
def digitOf (c : Byte) : Option Nat :=
  match invLookup c with
  | .inRange e => some (digitField e)
  | .outOfRange => none

/-- `isZ85(c)`: the code is a character of the alphabet (R74). -/
def isZ85 (c : Byte) : Bool :=
  match invLookup c with
  | .inRange e => validField e
  | .outOfRange => false

end Sys2Proof.Machine
end

