-- ==== Sys2Proof/Machine/Operands.lean ====
section
/-! DEFINITION. What the operands of a command mean: group sizes and the length validator (R105, R107), the group functions of both units (R77, R89, R90), and the whole-command functions Z85enc and Z85dec (R80, R94). -/

namespace Sys2Proof.Machine

/-- `G`, the unit's input group size: 4 for an encoder, 5 for a decoder (R14, R15). -/
def groupIn : UnitKind → Nat
  | .enc => 4
  | .dec => 5

/-- `G'`, the output group size: 5 for an encoder, 4 for a decoder (R26). -/
def groupOut : UnitKind → Nat
  | .enc => 5
  | .dec => 4

/-- VALIDATE_LEN: `lenOk(op, n)` (R105). -/
def lenOk (k : UnitKind) (n : Nat) : Bool := n % groupIn k == 0

/-- `outLen(op, n)` (R107). -/
def outLen (k : UnitKind) (n : Nat) : Nat := groupOut k * (n / groupIn k)

/-- `be32`, the big-endian value of four bytes (R9, R36). -/
def be32 (b0 b1 b2 b3 : Byte) : U32 :=
  wrap32 (b0.toNat * 2 ^ 24 + b1.toNat * 2 ^ 16 + b2.toNat * 2 ^ 8 + b3.toNat)

/-- The base-85 digit of `v` at the power `85^k`: `(v div 85^k) mod 85` (R77). -/
def digitAt (v : U32) (k : Nat) : Fin 85 := ⟨v.toNat / 85 ^ k % 85, Nat.mod_lt _ (by decide)⟩

/-- `encGroup(v)`, five characters, most significant digit first (R77). -/
def encGroup (v : U32) : List Byte :=
  [fwd (digitAt v 4), fwd (digitAt v 3), fwd (digitAt v 2), fwd (digitAt v 1), fwd (digitAt v 0)]

/-- The four output bytes of a group value, most significant first (R38, R90, R99). -/
def bytesOf (v : U32) : List Byte :=
  [byteOf (v.toNat / 256 ^ 3 % 256), byteOf (v.toNat / 256 ^ 2 % 256),
   byteOf (v.toNat / 256 % 256), byteOf (v.toNat % 256)]

/-- `decVal(c_0..c_4)`, the full base-85 value of five codes; none when one of them has no digit (R89). -/
def decVal (c0 c1 c2 c3 c4 : Byte) : Option Nat :=
  match digitOf c0, digitOf c1, digitOf c2, digitOf c3, digitOf c4 with
  | some d0, some d1, some d2, some d3, some d4 =>
    some (d0 * 85 ^ 4 + d1 * 85 ^ 3 + d2 * 85 ^ 2 + d3 * 85 + d4)
  | _, _, _, _, _ => none

/-- `decGroup(c_0..c_4)`: the low 32 bits of the group's value, as four bytes (R90, R91). -/
def decGroup (c0 c1 c2 c3 c4 : Byte) : Option (List Byte) :=
  (decVal c0 c1 c2 c3 c4).map (fun v => bytesOf (wrap32 v))

/-- The encoder unit's accumulation: "value = value×256 + next_byte" (R82). -/
def accByte (acc : U32) (b : Byte) : U32 := wrap32 (acc.toNat * 256 + b.toNat)

/-- The decoder unit's accumulation: "value = value×85 + digit_of(next_char)", low 32 bits (R91, R98). -/
def accDigit (acc : U32) (d : Nat) : U32 := wrap32 (acc.toNat * 85 + d)

/-- The characters of all whole groups of a byte sequence, in stream order (R39, R80). -/
def encBytes : List Byte → List Byte
  | b0 :: b1 :: b2 :: b3 :: rest => encGroup (be32 b0 b1 b2 b3) ++ encBytes rest
  | _ => []

/-- The bytes of all whole groups of a text, in stream order, up to the first group that holds a code
with no digit (R39, R94). -/
def decBytes : List Byte → List Byte
  | c0 :: c1 :: c2 :: c3 :: c4 :: rest =>
    match decGroup c0 c1 c2 c3 c4 with
    | some bs => bs ++ decBytes rest
    | none => []
  | _ => []

/-- The place of the first element of `l` that `p` rejects (R94: `min{ i < n | not ... }`). -/
def firstBad (p : Byte → Bool) : List Byte → Option Nat
  | [] => none
  | c :: cs => if p c then (firstBad p cs).map (· + 1) else some 0

/-- A code in 32..127, which INV_LOOKUP has an entry for (R72). -/
def inRange (c : Byte) : Bool := 32 ≤ c.toNat && c.toNat ≤ 127

/-- The out-of-alphabet policy of a decode (R55). -/
inductive Policy where
  | perm
  | strict
  deriving DecidableEq, Repr

/-- What a whole command comes to (R80, R94): a response with what it wrote, or the fault with what
had been written by then. -/
inductive Result where
  | answer (status : Status) (outLen info : Nat) (out : List Byte)
  | fault (i : Nat) (c : Byte) (written : List Byte)
  deriving DecidableEq, Repr

/-- `Z85enc(n, IN, ans)` (R80). -/
def z85enc (n : Nat) (inp : List Byte) (ans : Alloc) : Result :=
  if n % 4 ≠ 0 then .answer .errLength 0 (n % 4) []
  else if n = 0 then .answer .ok 0 0 []
  else if ans = .deny then .answer .errAlloc 0 (5 * n / 4) []
  else .answer .ok (5 * n / 4) 0 (encBytes (inp.take n))

/-- The last part of `Z85dec`, once the checks have passed and the buffer is granted: the fault at the
least out-of-range index, or OK (R94). -/
def z85decRun (n : Nat) (inp : List Byte) : Result :=
  match firstBad inRange (inp.take n) with
  | some i => .fault i (inp.getD i 0) (decBytes (inp.take (5 * (i / 5))))
  | none => .answer .ok (4 * n / 5) 0 (decBytes (inp.take n))

/-- The part of `Z85dec` after the length and character checks (R94). -/
def z85decChecked (n : Nat) (inp : List Byte) (ans : Alloc) : Result :=
  if n = 0 then .answer .ok 0 0 []
  else if ans = .deny then .answer .errAlloc 0 (4 * n / 5) []
  else z85decRun n inp

/-- `Z85dec(pol, n, IN, ans)` (R94). A strict text that passes has no out-of-range code, so the
fault's test is the permissive one's alone. -/
def z85dec (pol : Policy) (n : Nat) (inp : List Byte) (ans : Alloc) : Result :=
  if n % 5 ≠ 0 then .answer .errLength 0 (n % 5) []
  else match pol with
    | .perm => z85decChecked n inp ans
    | .strict =>
      match firstBad isZ85 (inp.take n) with
      | some i => .answer .errChar 0 i []
      | none => z85decChecked n inp ans

end Sys2Proof.Machine
end

