-- ==== Sys2Proof/Machine/Flags.lean ====
section
/-! DEFINITION. The block has no flags (R22): what a command comes to is said by its response. This file holds the bit patterns of the status codes and unit states, and the checks of an ACCEPT step in the order of R119. -/

namespace Sys2Proof.Machine

/-- The 3-bit STATUS code (R61). -/
def Status.code : Status → BitVec 3
  | .ok => 0#3
  | .errLength => 1#3
  | .errAlloc => 2#3
  | .errChar => 3#3
  | .errCmd => 4#3

/-- The 2-bit pattern of `st` (R14). -/
def UnitSt.code : UnitSt → BitVec 2
  | .idle => 0b00#2
  | .run => 0b01#2
  | .fault => 0b10#2

/-- The 1-bit pattern of `fkind` (R14). -/
def FaultKind.code : FaultKind → BitVec 1
  | .noFault => 0#1
  | .undefinedLookup => 1#1

/-- What the checks of an ACCEPT step come to (R119): an answer at once, a request for an output
buffer of so many bytes, or a read of an IN byte that is not there. -/
inductive Verdict where
  | answer (status : Status) (info : Nat)
  | ask (outLen : Nat)
  | stop (f : Fault)
  deriving DecidableEq, Repr

/-- What the strict pre-scan finds (R97). -/
inductive Scan where
  | clean
  | bad (i : Nat)
  | absent (i : Nat)
  deriving DecidableEq, Repr

/-- The strict pre-scan of IN, element by element in ascending order, from index `i` (R45, R97);
`len` elements are still to be read and the host's bytes for them are `bytes`. -/
def scanFrom (i : Nat) : (len : Nat) → (bytes : List Byte) → Scan
  | 0, _ => .clean
  | _ + 1, [] => .absent i
  | len + 1, c :: cs => if isZ85 c then scanFrom (i + 1) len cs else .bad i

/-- The tail of both ACCEPT steps once the input is valid: the empty command needs no buffer, any
other asks for `outLen` bytes (R81, R97, R118). -/
def lastChecks (k : UnitKind) (len : Nat) : Verdict :=
  if len = 0 then .answer .ok 0 else .ask (outLen k len)

/-- The checks of ENC_ACCEPT (R81). -/
def encVerdict (c : Command) : Verdict :=
  if lenOk .enc c.len then lastChecks .enc c.len
  else .answer .errLength (c.len % 4)

/-- The checks of DEC_ACCEPT, with the strict pre-scan when `strict` (R97). -/
def decVerdict (strict : Bool) (c : Command) : Verdict :=
  if lenOk .dec c.len then
    if strict then
      match scanFrom 0 c.len c.input with
      | .absent i => .stop (.inAbsent i)
      | .bad i => .answer .errChar i
      | .clean => lastChecks .dec c.len
    else lastChecks .dec c.len
  else .answer .errLength (c.len % 5)

end Sys2Proof.Machine
end

