-- ==== Sys2Proof/Machine/Ops.lean ====
section
/-! DEFINITION. The named operations over the state: the address spaces, the units, the response channel, the allocation handshake, dispatch and the ACCEPT step, entering the fault (the block's one exception) and reset, the only way out of it. -/

namespace Sys2Proof.Machine

/-- What a meaning answers. -/
abbrev Outcome := Host.Outcome State Fault Refusal

/-! ### Address spaces -/

/-- The byte a sorted list of cells holds at an address. -/
def cellAt (a : Nat) : List Host.Cell → Option Byte
  | [] => none
  | (x, b) :: rest => if x = a then some b else cellAt a rest

/-- Put a byte at an address, keeping the addresses strictly rising. -/
def cellPut (a : Nat) (v : Byte) : List Host.Cell → List Host.Cell
  | [] => [(a, v)]
  | (x, b) :: rest =>
    if a < x then (a, v) :: (x, b) :: rest
    else if a = x then (a, v) :: rest
    else (x, b) :: cellPut a v rest

/-- Bytes at consecutive addresses from `a` on. -/
def cellsFrom (a : Nat) : List Byte → List Host.Cell
  | [] => []
  | b :: bs => (a, b) :: cellsFrom (a + 1) bs

/-- The canonical form: addresses strictly rising, and every address in the space. No listed byte
equals what an unlisted address reads as, since that is no value at all (log entry 10). -/
def Memory.wf (m : Memory) : Bool :=
  decide (m.cells.Pairwise (fun x y => x.1 < y.1)) && m.cells.all (fun c => c.1 < m.size)

/-- The byte at address `a`; none where the space has no such address or nothing has been written. -/
def Memory.read (m : Memory) (a : Nat) : Option Byte :=
  if a < m.size then cellAt a m.cells else none

/-- `MemWrite(OUT, a, 1, v)` (R10): a byte outside the space is a fault. -/
def Memory.write (m : Memory) (a : Nat) (v : Byte) : Except Fault Memory :=
  if a < m.size then .ok { m with cells := cellPut a v m.cells } else .error (.outAbsent a)

/-- Write bytes at consecutive addresses in ascending order (R83, R99). -/
def Memory.writeAll (m : Memory) (a : Nat) : List Byte → Except Fault Memory
  | [] => .ok m
  | b :: bs =>
    match m.write a b with
    | .ok m' => m'.writeAll (a + 1) bs
    | .error f => .error f

/-- The IN space of a command: `len` addresses, with the bytes the host supplied (R34). -/
def Memory.ofBytes (len : Nat) (bs : List Byte) : Memory :=
  { size := len, cells := cellsFrom 0 (bs.take len) }

/-- The OUT space the host grants: `len` addresses, nothing written yet (R35, R118, U3). -/
def Memory.fresh (len : Nat) : Memory := { size := len, cells := [] }

/-! ### Units -/

/-- The units of one kind. -/
def State.lanes (k : UnitKind) (s : State) : List Lane :=
  match k with
  | .enc => s.enc
  | .dec => s.dec

/-- The state with other units of one kind. -/
def State.setLanes (k : UnitKind) (ls : List Lane) (s : State) : State :=
  match k with
  | .enc => { s with enc := ls }
  | .dec => { s with dec := ls }

/-- The unit `ENC[i]` or `DEC[j]`, if there is one (R128). -/
def State.lane? (u : UnitId) (s : State) : Option Lane := (s.lanes u.kind)[u.idx]?

/-- The state with one unit replaced; no other unit is touched (R28). -/
def State.setLane (u : UnitId) (l : Lane) (s : State) : State :=
  s.setLanes u.kind ((s.lanes u.kind).set u.idx l)

/-- A unit's `st`, the only register the host can read (R23). -/
def State.status (u : UnitId) (s : State) : Option UnitSt := (s.lane? u).map (fun l => l.regs.st)

/-- The places of the units of one kind that are IDLE. -/
def State.idleUnits (k : UnitKind) (s : State) : List Nat :=
  (List.range (s.lanes k).length).filter (fun i => s.status ⟨k, i⟩ = some .idle)

/-! ### Responses -/

/-- `respond(tid, status, out_len, info)` (R10, R60); `out` is the buffer that passes to the host. -/
def State.respond (r : Response) (out : Memory) (s : State) : State :=
  { s with responses := s.responses ++ [{ resp := r, out := out }] }

/-- "An error is reported by one `respond(t, STATUS, 0, INFO)` in the step that finds it" (R117); the
empty command's OK response has the same form (R81). No buffer was granted. -/
def answerNow (tid : Nat) (st : Status) (info : Nat) (s : State) : State :=
  s.respond { tid := tid, status := st, outLen := 0, info := info } .absent

/-- The dispatcher's answer to an illegal command word (R58, R114). -/
def answerIllegal (c : Command) (s : State) : State := answerNow c.tid .errCmd c.cmd.toNat s

/-- The host's read of byte `i` of a response's buffer: only of an OK response, and only below
OUT_LEN (R140). -/
def Delivery.hostRead (d : Delivery) (i : Nat) : Option Byte :=
  if d.resp.status = .ok ∧ i < d.resp.outLen then d.out.read i else none

/-! ### The host's draws -/

/-- Take the first answer listed for a tid out of the list. -/
def takeAnswer (tid : Nat) : List (Nat × Alloc) → Option (Alloc × List (Nat × Alloc))
  | [] => none
  | (t, a) :: rest =>
    if t = tid then some (a, rest)
    else (takeAnswer tid rest).map (fun p => (p.1, (t, a) :: p.2))

/-- `alloc(n)`: the host's answer to the request of command `tid`, the first one the state lists for
it, else a free value (R118, U4). -/
def allocate (tid : Nat) (s : State) : Alloc × State :=
  match takeAnswer tid s.answers with
  | some (a, rest) => (a, { s with answers := rest })
  | none => (if Config.allocGrants s.draws then .grant else .deny, { s with draws := s.draws + 1 })

/-- Which of the IDLE units `u :: us` takes a command (R64, U5): no choice when there is one, else
the first pick the state lists, else a free value. -/
def pickUnit (u : Nat) (us : List Nat) (s : State) : Nat × State :=
  match us, s.picks with
  | [], _ => (u, s)
  | _ :: _, p :: ps => ((u :: us).getD (p % (us.length + 1)) u, { s with picks := ps })
  | _ :: _, [] =>
    ((u :: us).getD (Config.unitChoice s.draws % (us.length + 1)) u, { s with draws := s.draws + 1 })

/-! ### Dispatch and ACCEPT -/

/-- The command is held: it waits with no response (R64). -/
def hold (c : Command) (s : State) : State := { s with held := s.held ++ [c] }

/-- The IDLE to RUN transition of an ACCEPT step (R81, R97): the command latched, the sequencing
state cleared, IN attached and the granted buffer of `n` bytes empty. -/
def Lane.start (c : Command) (n : Nat) (l : Lane) : Lane :=
  { regs := { l.regs with st := .run, tid := c.tid, cmd := c.cmd, n := c.len, ip := 0, opos := 0,
                          ph := 0#3, acc := 0#32 },
    inp := Memory.ofBytes c.len c.input, out := Memory.fresh n }

/-- Start a command on unit `u`. -/
def startUnit (u : UnitId) (c : Command) (n : Nat) (s : State) : State :=
  match s.lane? u with
  | some l => s.setLane u (l.start c n)
  | none => s

/-- The ACCEPT step of unit `u`, after its checks came to `v` (R81, R97, R119). -/
def accept (u : UnitId) (c : Command) (v : Verdict) (s : State) : Outcome :=
  match v with
  | .stop f => .fault f
  | .answer st info => .next (answerNow c.tid st info s)
  | .ask n =>
    match allocate c.tid s with
    | (.deny, s') => .next (answerNow c.tid .errAlloc n s')
    | (.grant, s') => .next (startUnit u c n s')

/-- Dispatch of a legal command to a unit of kind `k` (R64): an IDLE unit accepts it at once; when
there is none it is held. -/
def submit (k : UnitKind) (c : Command) (v : Verdict) (s : State) : Outcome :=
  match s.idleUnits k with
  | [] => .next (hold c s)
  | u :: us =>
    match pickUnit u us s with
    | (i, s') => accept ⟨k, i⟩ c v s'

/-! ### The exception and its end -/

/-- Fault entry (R116): `st <- FAULT`, the kind and `(ip, c)` recorded, every other field as it was. -/
def Lane.raiseFault (c : Byte) (l : Lane) : Lane :=
  { l with regs := { l.regs with st := .fault, fkind := .undefinedLookup, finfo := (l.regs.ip, c) } }

/-- Reset (R132, R133): every unit takes the reset values, every command without a response is
abandoned, and the response history stays (R29). The host's own side is not the block's to reset. -/
def resetBlock (s : State) : State :=
  { s with enc := s.enc.map (fun _ => Lane.reset), dec := s.dec.map (fun _ => Lane.reset),
           held := [] }

/-! ### The steps of a running unit -/

/-- What a unit's turn comes to: no step enabled, a step that changes the unit alone, the DONE step
with its response, or an access to an address that does not exist. -/
inductive UnitStep where
  | idle
  | moved (l : Lane)
  | done (l : Lane) (d : Delivery)
  | stop (f : Fault)
  deriving DecidableEq, Repr

/-- The fields after one element is accumulated to `acc` (R82, R98). -/
def Lane.accumulated (acc : U32) (l : Lane) : Lane :=
  { l with regs := { l.regs with acc := acc, ip := l.regs.ip + 1, ph := l.regs.ph + 1 } }

/-- The EMIT step of either unit, its group's bytes being `bs` (R83, R99). -/
def Lane.emit (bs : List Byte) (l : Lane) : UnitStep :=
  match l.out.writeAll l.regs.opos bs with
  | .ok m =>
    .moved { l with out := m,
                    regs := { l.regs with opos := l.regs.opos + bs.length, acc := 0#32, ph := 0#3 } }
  | .error f => .stop f

/-- The DONE step of either unit (R84, R100): the OK response, and OUT passes to the host; IN is the
host's again. -/
def Lane.finish (l : Lane) : UnitStep :=
  .done { regs := { l.regs with st := .idle }, inp := .absent, out := .absent }
    { resp := { tid := l.regs.tid, status := .ok, outLen := l.regs.opos, info := 0 }, out := l.out }

/-- Which step of a RUN unit is enabled, by `ph` and `ip` (R18, R85, R101). -/
inductive Phase where
  | acc
  | emit
  | done
  | stuck
  deriving DecidableEq, Repr

/-- The enabled step of a unit of kind `k` (R82 to R84, R98 to R100). A unit that is not in RUN has
none (R116, R130), and neither has a RUN unit in a state that R26 rules out. -/
def phase (k : UnitKind) (r : UnitRegs) : Phase :=
  if r.st ≠ .run then .stuck
  else if r.ph.toNat < groupIn k ∧ r.ip < r.n then .acc
  else if r.ph.toNat = groupIn k then .emit
  else if r.ph.toNat = 0 ∧ r.ip = r.n then .done
  else .stuck

end Sys2Proof.Machine
end

