-- ==== Sys2Proof/Machine/Decoder.lean ====
section
/-! DEFINITION. The decoder unit: the meanings of DECODE and DECODE.S (R95 to R97) and the unit's ACC, EMIT and DONE steps (R98 to R100), the fault UNDEFINED_LOOKUP among them (R115). -/

namespace Sys2Proof.Machine

/-- DECODE (R95): dispatch to an IDLE decoder unit and its DEC_ACCEPT step with STRICT = 0 (R97), or
the command is held. -/
def execDecode (tid len : Nat) (input : List Byte) (s : State) : Outcome :=
  submit .dec { tid := tid, cmd := 0x02#8, len := len, input := input }
    (decVerdict (strictField 0x02#8) { tid := tid, cmd := 0x02#8, len := len, input := input }) s

/-- DECODE.S (R96): as DECODE with STRICT = 1, so that the ACCEPT step scans IN first (R97). -/
def execDecodeS (tid len : Nat) (input : List Byte) (s : State) : Outcome :=
  submit .dec { tid := tid, cmd := 0x06#8, len := len, input := input }
    (decVerdict (strictField 0x06#8) { tid := tid, cmd := 0x06#8, len := len, input := input }) s

/-- DEC_ACC (R98): a code with no INV entry raises UNDEFINED_LOOKUP (R115, R116). -/
def decAcc (l : Lane) : UnitStep :=
  match l.inp.read l.regs.ip with
  | none => .stop (.inAbsent l.regs.ip)
  | some c =>
    match invLookup c with
    | .outOfRange => .moved (l.raiseFault c)
    | .inRange e => .moved (l.accumulated (accDigit l.regs.acc (digitField e)))

/-- DEC_EMIT (R99). -/
def decEmit (l : Lane) : UnitStep := l.emit (bytesOf l.regs.acc)

/-- The step a decoder unit takes at its turn (R101). -/
def decStep (l : Lane) : UnitStep :=
  match phase .dec l.regs with
  | .acc => decAcc l
  | .emit => decEmit l
  | .done => l.finish
  | .stuck => .idle

end Sys2Proof.Machine
end

