-- ==== Sys2Proof/Machine/Encoder.lean ====
section
/-! DEFINITION. The encoder unit: the meaning of ENCODE (R79, R81) and the unit's ACC, EMIT and DONE steps (R82 to R84). -/

namespace Sys2Proof.Machine

/-- ENCODE (R79): the host issues the command, the dispatcher hands it to an IDLE encoder unit (R64),
and that unit takes its ENC_ACCEPT step (R81); with no IDLE encoder unit the command is held. The unit
runs the rest of the command in its own later steps. -/
def execEncode (tid len : Nat) (input : List Byte) (s : State) : Outcome :=
  submit .enc { tid := tid, cmd := 0x01#8, len := len, input := input }
    (encVerdict { tid := tid, cmd := 0x01#8, len := len, input := input }) s

/-- ENC_ACC (R82). -/
def encAcc (l : Lane) : UnitStep :=
  match l.inp.read l.regs.ip with
  | none => .stop (.inAbsent l.regs.ip)
  | some b => .moved (l.accumulated (accByte l.regs.acc b))

/-- ENC_EMIT (R83). -/
def encEmit (l : Lane) : UnitStep := l.emit (encGroup l.regs.acc)

/-- The step an encoder unit takes at its turn (R85). -/
def encStep (l : Lane) : UnitStep :=
  match phase .enc l.regs with
  | .acc => encAcc l
  | .emit => encEmit l
  | .done => l.finish
  | .stuck => .idle

end Sys2Proof.Machine
end

