-- ==== Sys2Proof/Machine/Agents.lean ====
section
/-! DEFINITION. The agents and their moves (R13): the host's acts (R131), the dispatcher's hand-over of held commands (R64), the units' steps, and which agent moves next (U5). -/

namespace Sys2Proof.Machine

/-- What an agent's turn comes to: an instruction to run, or an outcome that runs none. -/
inductive Move where
  | run (i : Instr) (s : State)
  | fin (o : Outcome)

/-- The kind of unit that runs an instruction, by its OP field (R64). -/
def unitKind : Instr → UnitKind
  | .encode _ _ _ => .enc
  | .decode _ _ _ => .dec
  | .decodeS _ _ _ => .dec

/-- A command with this tid is held, in RUN or faulted: issued, with no response yet (R133). -/
def inFlight (t : Nat) (s : State) : Bool :=
  s.held.any (fun c => c.tid == t) ||
    (s.enc ++ s.dec).any (fun l => l.regs.st != .idle && l.regs.tid == t)

/-- `WAIT t` is over: "the response of t exists" and no later command of that tid is in flight (R67). -/
def waitOver (t : Nat) (s : State) : Bool :=
  s.responses.any (fun d => d.resp.tid == t) && !inFlight t s

/-- The host's next act, first act of its script (R67, R131). The dispatcher decodes a command at once:
an illegal word is answered (R58), a legal command is an instruction to run now or later (R13). -/
def hostMove (s : State) : Move :=
  match s.script with
  | [] => .fin (.next s)
  | .issue c :: rest =>
    match decode c with
    | .ok i => .run i { s with script := rest }
    | .error _ => .fin (.next (answerIllegal c { s with script := rest }))
  | .post c :: rest =>
    match decode c with
    | .ok _ => .fin (.next (hold c { s with script := rest }))
    | .error _ => .fin (.next (answerIllegal c { s with script := rest }))
  | .reset :: rest => .fin (.next (resetBlock { s with script := rest }))
  | .readStatus u :: rest =>
    match s.status u with
    | some st => .fin (.next { s with script := rest, polled := s.polled ++ [(u, st)] })
    | none => .fin (.next { s with script := rest })
  | .wait t :: rest => if waitOver t s then .fin (.next { s with script := rest }) else .fin (.next s)

/-- The dispatcher hands over the held command at place `k`, if a unit of its kind is IDLE (R64). An
illegal command is never held (R114); if one were it would get its answer. -/
def dispatcherMove (k : Nat) (s : State) : Move :=
  match s.held[k]? with
  | none => .fin (.next s)
  | some c =>
    match decode c with
    | .error _ => .fin (.next (answerIllegal c { s with held := s.held.eraseIdx k }))
    | .ok i =>
      if s.idleUnits (unitKind i) = [] then .fin (.next s)
      else .run i { s with held := s.held.eraseIdx k }

/-- The step a unit of kind `k` takes at its turn (R85, R101). -/
def unitStep (k : UnitKind) (l : Lane) : UnitStep :=
  match k with
  | .enc => encStep l
  | .dec => decStep l

/-- The turn of unit `u`: its one enabled step, if it has one. -/
def unitMove (u : UnitId) (s : State) : Outcome :=
  match s.lane? u with
  | none => .next s
  | some l =>
    match unitStep u.kind l with
    | .idle => .next s
    | .moved l' => .next (s.setLane u l')
    | .done l' d => .next ((s.setLane u l').respond d.resp d.out)
    | .stop f => .fault f

/-- The turn of an agent. An agent with no enabled move changes nothing. -/
def agentMove (a : Agent) (s : State) : Move :=
  match a with
  | .host => hostMove s
  | .dispatcher k => dispatcherMove k s
  | .unit u => .fin (unitMove u s)

/-- The host has an act it can do now. -/
def hostEnabled (s : State) : Bool :=
  match s.script with
  | [] => false
  | .wait t :: _ => waitOver t s
  | _ :: _ => true

/-- The dispatcher can hand over the held command at place `k`. -/
def dispatchEnabled (k : Nat) (s : State) : Bool :=
  match s.held[k]? with
  | none => false
  | some c =>
    match decode c with
    | .error _ => true
    | .ok i => s.idleUnits (unitKind i) != []

/-- Unit `u` has an enabled step (R85, R101). -/
def unitEnabled (u : UnitId) (s : State) : Bool :=
  match s.lane? u with
  | none => false
  | some l => phase u.kind l.regs != .stuck

/-- Every agent with an enabled move. -/
def enabledAgents (s : State) : List Agent :=
  (if hostEnabled s then [.host] else []) ++
    ((List.range s.held.length).filter (fun k => dispatchEnabled k s)).map .dispatcher ++
    ((List.range s.enc.length).filter (fun i => unitEnabled ⟨.enc, i⟩ s)).map (fun i => .unit ⟨.enc, i⟩) ++
    ((List.range s.dec.length).filter (fun i => unitEnabled ⟨.dec, i⟩ s)).map (fun i => .unit ⟨.dec, i⟩)

/-- Who moves next: the agent the state names; else the only one that can move; else a free value
chooses among those that can (R13, U5, log entry 3). -/
def chooseAgent (s : State) : Option Agent × State :=
  match s.turns with
  | a :: rest => (some a, { s with turns := rest })
  | [] =>
    match enabledAgents s with
    | [] => (none, s)
    | [a] => (some a, s)
    | a :: b :: more =>
      ((a :: b :: more)[Config.turn s.draws % (more.length + 2)]?, { s with draws := s.draws + 1 })

/-- The state in which the host issues `c` next and has the next turn. -/
def issueNext (c : Command) (s : State) : State :=
  { s with script := .issue c :: s.script, turns := .host :: s.turns }

end Sys2Proof.Machine
end

