-- ==== Sys2Proof/Machine/Dispatch.lean ====
section
/-! DEFINITION. The meaning of every instruction: one arm per constructor, each one call of its meaning. -/

namespace Sys2Proof.Machine

def exec (i : Instr) (s : State) : Host.Outcome State Fault Refusal :=
  match i with
  | .encode tid len input => Sys2Proof.Machine.execEncode tid len input s
  | .decode tid len input => Sys2Proof.Machine.execDecode tid len input s
  | .decodeS tid len input => Sys2Proof.Machine.execDecodeS tid len input s

end Sys2Proof.Machine
end

