-- ==== Sys2Proof/Machine/Step.lean ====
section
/-! DEFINITION. One step of the machine: the agent whose turn it is moves (R13), and an instruction it issues or hands over is run by exec. -/

namespace Sys2Proof.Machine

/-- One step of one agent (R13). With no agent that can move, nothing changes (R130). -/
def step (s : State) : Host.Outcome State Fault Refusal :=
  match chooseAgent s with
  | (none, s') => .next s'
  | (some a, s') =>
    match agentMove a s' with
    | .run i t => exec i t
    | .fin o => o

/-- The state in which the table's word is the command the host issues in the very next step. -/
def State.withFetchWord (s : State) (nbits w : Nat) : State := issueNext (commandOfTableWord nbits w) s

end Sys2Proof.Machine
end

