-- ==== Sys2Proof/Safety.lean ====
section
/-! DEFINITION. What claims speak about: final states (R147), canonical text (R93), the steps a command still needs and the fairness of executions (R144), the invariants of the block (R24, R26) and the host's duty to supply its input (R59). -/

namespace Sys2Proof.Machine

/-! ### Whole-block notions -/

/-- A final state: no command held and every unit IDLE, so every command issued has its response or
was abandoned (R147). -/
def Final (s : State) : Prop := s.held = [] ∧ ∀ l ∈ s.enc ++ s.dec, l.regs.st = .idle

/-- The three legal command words (R57). -/
def LegalWord (w : Byte) : Prop := w = 0x01#8 ∨ w = 0x02#8 ∨ w = 0x06#8

/-- The step leaves the unit's record at `r'` from `r` (R19): the transitions of `st` a step without
reset may make. -/
def StMove (k : UnitKind) (a b : UnitSt) : Prop :=
  a = b ∨ (a = .idle ∧ b = .run) ∨ (a = .run ∧ b = .idle) ∨ (k = .dec ∧ a = .run ∧ b = .fault)

/-- The host's next act is a reset and the host has the turn. -/
def ResetTurn (s : State) : Prop :=
  (chooseAgent s).1 = some .host ∧ s.script.head? = some .reset

/-! ### Canonical text -/

/-- A canonical group: alphabet characters only, with a value of at most `2^32 − 1` (R93). -/
def CanonicalGroup (c0 c1 c2 c3 c4 : Byte) : Prop :=
  (isZ85 c0 ∧ isZ85 c1 ∧ isZ85 c2 ∧ isZ85 c3 ∧ isZ85 c4) ∧
    ∃ v, decVal c0 c1 c2 c3 c4 = some v ∧ v ≤ 2 ^ 32 - 1

/-- A canonical text: whole groups, each canonical (R93). -/
def CanonicalText : List Byte → Prop
  | [] => True
  | c0 :: c1 :: c2 :: c3 :: c4 :: rest => CanonicalGroup c0 c1 c2 c3 c4 ∧ CanonicalText rest
  | _ => False

/-! ### Progress -/

/-- How many steps a RUN unit still needs if it does not fault (R144): an ACC for every element left,
an EMIT for every group left, and DONE. -/
def stepsLeft (k : UnitKind) (r : UnitRegs) : Nat :=
  (r.n - r.ip) + (r.n / groupIn k - (r.ip - r.ph.toNat) / groupIn k) + 1

/-! ### Executions and weak fairness (R144, D33) -/

/-- An execution: every state is the step's answer to the one before. Where no agent can move the state
repeats (R130). -/
def Execution (run : Nat → State) : Prop := ∀ k, step (run k) = .next (run (k + 1))

/-- The agent `a` takes the next step. -/
def Takes (s : State) (a : Agent) : Prop := (chooseAgent s).1 = some a

/-- The dispatcher takes the next step, for the held command `c`. -/
def HandsOver (s : State) (c : Command) : Prop := ∃ m, Takes s (.dispatcher m) ∧ s.held[m]? = some c

/-- "a unit in RUN that has an enabled step eventually takes it" (R144): no unit has an enabled step for
ever without a turn. -/
def UnitsFair (run : Nat → State) : Prop :=
  ∀ (u : UnitId) (k : Nat), (∀ j ≥ k, unitEnabled u (run j) = true) → ∃ j ≥ k, Takes (run j) (.unit u)

/-- "a held command is eventually dispatched once a unit of its kind stays IDLE" (R144): no legal command
is held for ever, with the same unit of its kind IDLE for ever, and never handed over. The tuple names the
command, since the tids of commands in flight differ (R131). -/
def HeldFair (run : Nat → State) : Prop :=
  ∀ (c : Command) (i : Instr) (u : UnitId) (k : Nat), decode c = .ok i → u.kind = unitKind i →
    (∀ j ≥ k, c ∈ (run j).held ∧ (run j).status u = some .idle) → ∃ j ≥ k, HandsOver (run j) c

/-- The spec's assumption on executions (R144). The step alone does not promise it: it is a premise of the
statements that a command ends (log entry 8). -/
structure WeaklyFair (run : Nat → State) : Prop where
  units : UnitsFair run
  held : HeldFair run

/-- How many turns unit `u` has in the first `k` steps of an execution. -/
def unitTurns (run : Nat → State) (u : UnitId) (k : Nat) : Nat :=
  Nat.count (fun j => (chooseAgent (run j)).1 = some (.unit u)) k

/-! ### Invariants of a unit (R26) -/

/-- The first `t` elements of a space that have a value. -/
def Memory.first (m : Memory) (t : Nat) : List Byte := (List.range t).filterMap m.read

/-- What one input element adds to the accumulator: its value as a byte for an encoder, its digit
for a decoder (R82, R98). -/
def elemValue (k : UnitKind) (b : Byte) : Nat :=
  match k with
  | .enc => b.toNat
  | .dec => (digitOf b).getD 0

/-- The base a unit accumulates in: 256 for an encoder, 85 for a decoder (R82, R98). -/
def accBase : UnitKind → Nat
  | .enc => 256
  | .dec => 85

/-- The sum of R26 over the `ph` elements of the current group. -/
def groupSum (k : UnitKind) (l : Lane) : Nat :=
  ∑ j ∈ Finset.range l.regs.ph.toNat,
    elemValue k ((l.inp.read (l.regs.ip - l.regs.ph.toNat + j)).getD 0) * accBase k ^ (l.regs.ph.toNat - 1 - j)

/-- The output of the whole groups of an input, by kind (R80, R94). -/
def groupBytes (k : UnitKind) (bs : List Byte) : List Byte :=
  match k with
  | .enc => encBytes bs
  | .dec => decBytes bs

/-- The relations of R26 between the fields of a unit that runs a command, with its address spaces:
IN has been read up to `ip`, and OUT holds exactly the groups completed so far (R39, R116). -/
structure Running (k : UnitKind) (l : Lane) : Prop where
  len_ok : l.regs.n % groupIn k = 0
  ph_le : l.regs.ph.toNat ≤ groupIn k
  ph_le_ip : l.regs.ph.toNat ≤ l.regs.ip
  ip_le : l.regs.ip ≤ l.regs.n
  aligned : (l.regs.ip - l.regs.ph.toNat) % groupIn k = 0
  opos_eq : l.regs.opos = groupOut k * ((l.regs.ip - l.regs.ph.toNat) / groupIn k)
  acc_zero : l.regs.ph.toNat = 0 → l.regs.acc = 0#32
  acc_sum : l.regs.acc = wrap32 (groupSum k l)
  acc_small : k = .enc → l.regs.acc.toNat < 256 ^ l.regs.ph.toNat ∧ l.regs.acc.toNat = groupSum k l
  inp_size : l.inp.size = l.regs.n
  inp_wf : l.inp.wf = true
  inp_read : ∀ j < l.regs.ip, ∃ b, l.inp.read j = some b ∧ (k = .dec → inRange b = true)
  out_eq : l.out =
    Memory.ofBytes (outLen k l.regs.n) (groupBytes k (l.inp.first (l.regs.ip - l.regs.ph.toNat)))

/-- The command words a unit of each kind latches (R54). -/
def WordOfKind (k : UnitKind) (w : Byte) : Prop :=
  match k with
  | .enc => w = 0x01#8
  | .dec => w = 0x02#8 ∨ w = 0x06#8

/-- What holds of a unit, by its `st`: IDLE has nothing left of a finished command (R24) and no fault
record; RUN has R26, and under DECODE.S an input of alphabet characters only (R98); FAULT happens to a
decoder running DECODE, and records the element it stopped at (R115, R116). -/
def LaneInv (k : UnitKind) (l : Lane) : Prop :=
  match l.regs.st with
  | .idle =>
    l.regs.ph = 0#3 ∧ l.regs.acc = 0#32 ∧ l.regs.fkind = .noFault ∧ l.regs.finfo = (0, 0x00#8) ∧
      l.inp = .absent ∧ l.out = .absent
  | .run =>
    Running k l ∧ 0 < l.regs.n ∧ WordOfKind k l.regs.cmd ∧ l.regs.fkind = .noFault ∧
      l.regs.finfo = (0, 0x00#8) ∧
      (l.regs.cmd = 0x06#8 → ∀ j < l.regs.n, ∃ b, l.inp.read j = some b ∧ isZ85 b = true)
  | .fault =>
    Running k l ∧ k = .dec ∧ l.regs.cmd = 0x02#8 ∧ l.regs.fkind = .undefinedLookup ∧
      l.regs.ph.toNat < 5 ∧ l.regs.ip < l.regs.n ∧
      ∃ c, l.inp.read l.regs.ip = some c ∧ l.regs.finfo = (l.regs.ip, c) ∧ inRange c = false

/-- What holds of a response and its buffer (R60 to R63, R140): an OK response has every byte of
OUT[0..OUT_LEN) written; every error has OUT_LEN = 0 and the INFO of R63. -/
def DeliveryInv (d : Delivery) : Prop :=
  match d.resp.status with
  | .ok =>
    d.resp.info = 0 ∧ d.out.size = d.resp.outLen ∧ d.out.wf = true ∧
      ∀ a < d.resp.outLen, (d.out.read a).isSome
  | .errLength => d.resp.outLen = 0 ∧ 1 ≤ d.resp.info ∧ d.resp.info ≤ 4
  | .errAlloc => d.resp.outLen = 0 ∧ 0 < d.resp.info
  | .errChar => d.resp.outLen = 0
  | .errCmd => d.resp.outLen = 0 ∧ d.resp.info < 256 ∧ ¬ LegalWord (byteOf d.resp.info)

/-- The invariant of the block: at least one unit of each kind (R6), every unit and every response as
they must be, and only legal commands held (R114). -/
structure BlockInv (s : State) : Prop where
  has_enc : s.enc ≠ []
  has_dec : s.dec ≠ []
  enc_inv : ∀ l ∈ s.enc, LaneInv .enc l
  dec_inv : ∀ l ∈ s.dec, LaneInv .dec l
  responses_inv : ∀ d ∈ s.responses, DeliveryInv d
  held_legal : ∀ c ∈ s.held, LegalWord c.cmd

/-! ### The host's duty (R59, R131) -/

/-- An act that keeps the duty of R59: a command comes with exactly LEN bytes. -/
def ActSupplied (a : HostAct) : Prop :=
  match a with
  | .issue c => c.WellFormed
  | .post c => c.WellFormed
  | .reset => True
  | .readStatus _ => True
  | .wait _ => True

/-- The host keeps the duty of R59: every command it will issue, every one held, and every one a unit
runs has all LEN bytes. -/
structure Supplied (s : State) : Prop where
  script_ok : ∀ a ∈ s.script, ActSupplied a
  held_ok : ∀ c ∈ s.held, c.WellFormed
  lanes_ok : ∀ l ∈ s.enc ++ s.dec, l.regs.st = .run → ∀ j < l.regs.n, (l.inp.read j).isSome

end Sys2Proof.Machine
end

