-- ==== Sys2Proof/Certificates/Slice0/Obligations.lean ====
section
/-! DEFINITION. The statements for the provers, each from the numbered rules of spec/ it names. -/

open Sys2Proof Sys2Proof.Machine

/-! ### Encoding -/

/-- R57: the three rows of the opcode table, each written as its bits, decode to the three operations,
with and without operands; and a word of each illegal class decodes to none (R58). -/
def Obligations.CommandWordsDecode : Prop :=
  (∀ t n b, decode { tid := t, cmd := 0b00000001#8, len := n, input := b } = .ok (.encode t n b)) ∧
  (∀ t n b, decode { tid := t, cmd := 0b00000010#8, len := n, input := b } = .ok (.decode t n b)) ∧
  (∀ t n b, decode { tid := t, cmd := 0b00000110#8, len := n, input := b } = .ok (.decodeS t n b)) ∧
  decodeTableWord 8 0x01 = some (.encode 0 0 []) ∧ decodeTableWord 8 0x02 = some (.decode 0 0 []) ∧
  decodeTableWord 8 0x06 = some (.decodeS 0 0 []) ∧
  decodeWord 0x05#8 = .error .strictEncode ∧ decodeWord 0x03#8 = .error .reservedOp ∧
  decodeWord 0x81#8 = .error .reservedBits

/-- Decode and encode agree (R52, R57, R67): a command tuple decodes to an instruction exactly when it
is that instruction's encoding. So every operand at every value survives, and no tuple that is no
encoding decodes. -/
def Obligations.DecodeExactlyEncodings : Prop :=
  ∀ (c : Command) (i : Instr), decode c = .ok i ↔ c = encode i

/-- R58: a word is illegal exactly when some RSV bit is set, or OP is 0b00 or 0b11, or it is 0x05
(encode with STRICT = 1); these are the words other than 0x01, 0x02 and 0x06. -/
def Obligations.IllegalWordsByField : Prop :=
  ∀ w : Byte,
    ((∃ e, decodeWord w = .error e) ↔
      (w.extractLsb' 3 5 ≠ 0 ∨ w.extractLsb' 0 2 = 0b00#2 ∨ w.extractLsb' 0 2 = 0b11#2 ∨ w = 0x05#8)) ∧
    ((∃ e, decodeWord w = .error e) ↔ ¬ LegalWord w)

/-- R114 (and R58): the dispatcher answers an illegal word at once with ERR_CMD, INFO = CMD and
OUT_LEN = 0. No unit takes part, the command is not held, and nothing else changes. -/
def Obligations.IllegalCommandAnswered : Prop :=
  ∀ (s : State) (a : HostAct) (c : Command) (rest : List HostAct) (ts : List Agent),
    a = .issue c ∨ a = .post c → s.turns = .host :: ts → s.script = a :: rest → ¬ LegalWord c.cmd →
    step s = .next { s with
      turns := ts, script := rest,
      responses := s.responses ++
        [{ resp := { tid := c.tid, status := .errCmd, outLen := 0, info := c.cmd.toNat },
           out := .absent }] }

/-! ### The step -/

/-- A step runs the decoded instruction: when the host has the turn and issues a tuple that decodes to
`i`, the step is exec of `i` in the state with that turn and that act taken. -/
def Obligations.StepRunsDecoded : Prop :=
  ∀ (s : State) (c : Command) (i : Instr) (rest : List HostAct) (ts : List Agent),
    s.turns = .host :: ts → s.script = .issue c :: rest → decode c = .ok i →
    step s = exec i { s with turns := ts, script := rest }

/-- The table's word, placed by `withFetchWord`, is run by the very next step, whatever the state: the
step is exec of the instruction the decoder reads from the word, in the state as it was. -/
def Obligations.StepRunsTableWord : Prop :=
  ∀ (s : State) (nbits w : Nat) (i : Instr), decodeTableWord nbits w = some i →
    step (s.withFetchWord nbits w) = exec i s

/-- A legal command whose hand-over the host leaves to the dispatcher waits: it is held, with no
response, and nothing else changes (R13, R64; log entry 2). -/
def Obligations.PostedCommandIsHeld : Prop :=
  ∀ (s : State) (i : Instr) (rest : List HostAct) (ts : List Agent),
    s.turns = .host :: ts → s.script = .post (encode i) :: rest →
    step s = .next { s with turns := ts, script := rest, held := s.held ++ [encode i] }

/-- The dispatcher hands over a held command once a unit of its kind is IDLE (R64): the step is exec
of the command, which is held no longer. -/
def Obligations.HeldCommandHandedOver : Prop :=
  ∀ (s : State) (k : Nat) (c : Command) (i : Instr) (ts : List Agent),
    s.turns = .dispatcher k :: ts → s.held[k]? = some c → decode c = .ok i →
    (s.idleUnits (unitKind i) ≠ [] →
      step s = exec i { s with turns := ts, held := s.held.eraseIdx k }) ∧
    (s.idleUnits (unitKind i) = [] → step s = .next { s with turns := ts })

/-- R130: with no agent that can move, a step changes nothing. -/
def Obligations.QuietBlockStays : Prop :=
  ∀ s : State, s.turns = [] → enabledAgents s = [] → step s = .next s

/-! ### The lookup memory -/

/-- R75, items 1 to 6. -/
def Obligations.RomProperties : Prop :=
  (∀ d e : Fin 85, fwd d = fwd e → d = e) ∧
  (∀ d : Fin 85, 0x21 ≤ (fwd d).toNat ∧ (fwd d).toNat ≤ 0x7D) ∧
  (∀ d : Fin 85, invLookup (fwd d) = .inRange (0x80#8 ||| BitVec.ofNat 8 d.val) ∧
    digitOf (fwd d) = some d.val ∧ isZ85 (fwd d) = true) ∧
  (∀ c : Byte, isZ85 c = true → ∃ d : Fin 85, digitOf c = some d.val ∧ fwd d = c) ∧
  (((List.range 96).filter (fun a => validField (invRom.getD a 0))).length = 85 ∧
    ∀ a : Fin 96, validField (inv a) = false → inv a = 0x00#8) ∧
  fwd 0 = 0x30#8

/-- R73 and R74: `digitOf` has no value exactly outside 32..127, it is the character's digit for an
alphabet character and 0 for every other code in range; `isZ85` holds of exactly the 85 characters. -/
def Obligations.LookupByCode : Prop :=
  ∀ c : Byte,
    (digitOf c = none ↔ c.toNat < 32 ∨ 127 < c.toNat) ∧
    (∀ d : Fin 85, c = fwd d → digitOf c = some d.val) ∧
    (32 ≤ c.toNat → c.toNat ≤ 127 → (∀ d : Fin 85, c ≠ fwd d) → digitOf c = some 0) ∧
    (isZ85 c = true ↔ ∃ d : Fin 85, c = fwd d)

/-- R14 and R61: the bit patterns of `st`, `fkind` and STATUS. -/
def Obligations.CodeValues : Prop :=
  UnitSt.idle.code = 0b00#2 ∧ UnitSt.run.code = 0b01#2 ∧ UnitSt.fault.code = 0b10#2 ∧
  FaultKind.noFault.code = 0#1 ∧ FaultKind.undefinedLookup.code = 1#1 ∧
  Status.ok.code = 0#3 ∧ Status.errLength.code = 1#3 ∧ Status.errAlloc.code = 2#3 ∧
  Status.errChar.code = 3#3 ∧ Status.errCmd.code = 4#3

/-! ### The group functions -/

/-- R78: a group's first digit is at most 82, so its first character is neither `$` nor `#`, and
encGroup is injective; its characters are those of the base-85 digits of the value (R77). -/
def Obligations.EncGroupDigits : Prop :=
  (∀ v : U32, ∃ d0 d1 d2 d3 d4 : Fin 85,
    encGroup v = [fwd d0, fwd d1, fwd d2, fwd d3, fwd d4] ∧ d0.val ≤ 82 ∧
    fwd d0 ≠ 0x24#8 ∧ fwd d0 ≠ 0x23#8 ∧
    v.toNat = d0.val * 85 ^ 4 + d1.val * 85 ^ 3 + d2.val * 85 ^ 2 + d3.val * 85 + d4.val) ∧
  (∀ v w : U32, encGroup v = encGroup w → v = w)

/-- R91: five ACC steps of a decoder from 0 give the low 32 bits of the group's full value, which is at
most `85^5 − 1`; and the group's four bytes are those of the wrapped value (R90). -/
def Obligations.DecoderGroupWraps : Prop :=
  ∀ (c0 c1 c2 c3 c4 : Byte) (d0 d1 d2 d3 d4 : Nat),
    digitOf c0 = some d0 → digitOf c1 = some d1 → digitOf c2 = some d2 → digitOf c3 = some d3 →
    digitOf c4 = some d4 →
    ∃ v, decVal c0 c1 c2 c3 c4 = some v ∧
      v = d0 * 85 ^ 4 + d1 * 85 ^ 3 + d2 * 85 ^ 2 + d3 * 85 + d4 ∧ v ≤ 4437053124 ∧
      (accDigit (accDigit (accDigit (accDigit (accDigit 0#32 d0) d1) d2) d3) d4).toNat = v % 2 ^ 32 ∧
      decGroup c0 c1 c2 c3 c4 =
        some [byteOf (v % 2 ^ 32 / 256 ^ 3), byteOf (v % 2 ^ 32 / 256 ^ 2 % 256),
              byteOf (v % 2 ^ 32 / 256 % 256), byteOf (v % 2 ^ 32 % 256)]

/-- R93: the canonical groups are exactly the images of encGroup, and encoding what a canonical group
decodes to gives the group back. -/
def Obligations.CanonicalGroupsAreImages : Prop :=
  (∀ c0 c1 c2 c3 c4 : Byte,
    CanonicalGroup c0 c1 c2 c3 c4 ↔ ∃ v : U32, encGroup v = [c0, c1, c2, c3, c4]) ∧
  (∀ c0 c1 c2 c3 c4 : Byte, CanonicalGroup c0 c1 c2 c3 c4 →
    ∃ b0 b1 b2 b3, decGroup c0 c1 c2 c3 c4 = some [b0, b1, b2, b3] ∧
      encGroup (be32 b0 b1 b2 b3) = [c0, c1, c2, c3, c4])

/-- R82, R36: four ACC steps of an encoder from 0 give the big-endian value of the group, and the
accumulator never overflows on the way. -/
def Obligations.EncoderGroupBigEndian : Prop :=
  ∀ b0 b1 b2 b3 : Byte,
    accByte (accByte (accByte (accByte 0#32 b0) b1) b2) b3 = be32 b0 b1 b2 b3 ∧
    (be32 b0 b1 b2 b3).toNat =
      b0.toNat * 2 ^ 24 + b1.toNat * 2 ^ 16 + b2.toNat * 2 ^ 8 + b3.toNat ∧
    bytesOf (be32 b0 b1 b2 b3) = [b0, b1, b2, b3]

/-! ### Whole commands -/

/-- R102 item 1: decoding the OK output of ENCODE gives OK with the encoded bytes, under both
policies. -/
def Obligations.RoundTripBytes : Prop :=
  ∀ (b : List Byte) (n : Nat), b.length = n → n % 4 = 0 →
    ∃ t, z85enc n b .grant = .answer .ok (5 * n / 4) 0 t ∧ t.length = 5 * n / 4 ∧
      ∀ pol, z85dec pol (5 * n / 4) t .grant = .answer .ok n 0 b

/-- R102 item 2: encoding the OK output of a decode gives back the text exactly when the text is
canonical. -/
def Obligations.RoundTripTextIffCanonical : Prop :=
  ∀ (pol : Policy) (t : List Byte) (n m : Nat) (b : List Byte), t.length = n →
    z85dec pol n t .grant = .answer .ok m 0 b →
    (z85enc m b .grant = .answer .ok n 0 t ↔ CanonicalText t)

/-- R87: an OK result of ENCODE has 5n/4 characters, each one of `FWD[0..84]`. -/
def Obligations.EncodeLengthAndAlphabet : Prop :=
  ∀ (n : Nat) (b : List Byte) (m x : Nat) (t : List Byte), b.length = n → n % 4 = 0 →
    z85enc n b .grant = .answer .ok m x t →
    m = 5 * n / 4 ∧ t.length = m ∧ ∀ c ∈ t, ∃ d : Fin 85, c = fwd d

/-- R105: the length validator is `n mod 4 = 0` for encode and `n mod 5 = 0` for decode. -/
def Obligations.LengthValidator : Prop :=
  ∀ n : Nat, (lenOk .enc n = true ↔ n % 4 = 0) ∧ (lenOk .dec n = true ↔ n % 5 = 0)

/-- R107: the output length of a valid length is `5n/4` or `4n/5`, exactly. -/
def Obligations.OutputLength : Prop :=
  ∀ n : Nat, (lenOk .enc n = true → 4 * outLen .enc n = 5 * n ∧ outLen .enc n = 5 * n / 4) ∧
    (lenOk .dec n = true → 5 * outLen .dec n = 4 * n ∧ outLen .dec n = 4 * n / 5)

/-! ### Dispatch and ACCEPT: each instruction's own effect -/

/-- R81 with R111, R112 and R118: ENCODE, whenever some encoder unit is IDLE, completes its ACCEPT
step: ERR_LENGTH with INFO = LEN mod 4; else OK at once for LEN = 0; else the host's answer decides
between ERR_ALLOC with INFO = 5·LEN/4 and the start of the command on the unit picked. -/
def Obligations.EncodeAccepts : Prop :=
  ∀ (s s1 s2 : State) (u : Nat) (us : List Nat) (i tid len : Nat) (input : List Byte),
    s.idleUnits .enc = u :: us → pickUnit u us s = (i, s1) →
    (len % 4 ≠ 0 →
      exec (.encode tid len input) s =
        .next (s1.respond { tid := tid, status := .errLength, outLen := 0, info := len % 4 } .absent)) ∧
    (len = 0 →
      exec (.encode tid len input) s =
        .next (s1.respond { tid := tid, status := .ok, outLen := 0, info := 0 } .absent)) ∧
    (len % 4 = 0 → 0 < len → allocate tid s1 = (.deny, s2) →
      exec (.encode tid len input) s =
        .next (s2.respond { tid := tid, status := .errAlloc, outLen := 0, info := 5 * len / 4 } .absent)) ∧
    (len % 4 = 0 → 0 < len → allocate tid s1 = (.grant, s2) →
      ∃ l, s.enc[i]? = some l ∧ l.regs.st = .idle ∧
        exec (.encode tid len input) s =
          .next { s2 with
            enc := s2.enc.set i
              { regs := { l.regs with st := .run, tid := tid, cmd := 0x01#8, n := len, ip := 0, opos := 0,
                                      ph := 0#3, acc := 0#32 },
                inp := Memory.ofBytes len input, out := Memory.fresh (5 * len / 4) } })

/-- R97 with STRICT = 0: DECODE, whenever some decoder unit is IDLE, completes its ACCEPT step; it
reads no character there. -/
def Obligations.DecodeAccepts : Prop :=
  ∀ (s s1 s2 : State) (u : Nat) (us : List Nat) (i tid len : Nat) (input : List Byte),
    s.idleUnits .dec = u :: us → pickUnit u us s = (i, s1) →
    (len % 5 ≠ 0 →
      exec (.decode tid len input) s =
        .next (s1.respond { tid := tid, status := .errLength, outLen := 0, info := len % 5 } .absent)) ∧
    (len = 0 →
      exec (.decode tid len input) s =
        .next (s1.respond { tid := tid, status := .ok, outLen := 0, info := 0 } .absent)) ∧
    (len % 5 = 0 → 0 < len → allocate tid s1 = (.deny, s2) →
      exec (.decode tid len input) s =
        .next (s2.respond { tid := tid, status := .errAlloc, outLen := 0, info := 4 * len / 5 } .absent)) ∧
    (len % 5 = 0 → 0 < len → allocate tid s1 = (.grant, s2) →
      ∃ l, s.dec[i]? = some l ∧ l.regs.st = .idle ∧
        exec (.decode tid len input) s =
          .next { s2 with
            dec := s2.dec.set i
              { regs := { l.regs with st := .run, tid := tid, cmd := 0x02#8, n := len, ip := 0, opos := 0,
                                      ph := 0#3, acc := 0#32 },
                inp := Memory.ofBytes len input, out := Memory.fresh (4 * len / 5) } })

/-- R97 with STRICT = 1 and R113: DECODE.S on a well-formed command, whenever some decoder unit is
IDLE, completes its ACCEPT step: after the length check the pre-scan answers ERR_CHAR with the least
index of a code that is no alphabet character, before any allocation request (R119). -/
def Obligations.DecodeStrictAccepts : Prop :=
  ∀ (s s1 s2 : State) (u : Nat) (us : List Nat) (i tid len : Nat) (input : List Byte),
    s.idleUnits .dec = u :: us → pickUnit u us s = (i, s1) → input.length = len →
    (len % 5 ≠ 0 →
      exec (.decodeS tid len input) s =
        .next (s1.respond { tid := tid, status := .errLength, outLen := 0, info := len % 5 } .absent)) ∧
    (∀ (x : Nat) (c : Byte), len % 5 = 0 → input[x]? = some c → isZ85 c = false →
      (∀ y < x, ∀ d, input[y]? = some d → isZ85 d = true) →
      exec (.decodeS tid len input) s =
        .next (s1.respond { tid := tid, status := .errChar, outLen := 0, info := x } .absent)) ∧
    (len = 0 →
      exec (.decodeS tid len input) s =
        .next (s1.respond { tid := tid, status := .ok, outLen := 0, info := 0 } .absent)) ∧
    (len % 5 = 0 → 0 < len → (∀ c ∈ input, isZ85 c = true) → allocate tid s1 = (.deny, s2) →
      exec (.decodeS tid len input) s =
        .next (s2.respond { tid := tid, status := .errAlloc, outLen := 0, info := 4 * len / 5 } .absent)) ∧
    (len % 5 = 0 → 0 < len → (∀ c ∈ input, isZ85 c = true) → allocate tid s1 = (.grant, s2) →
      ∃ l, s.dec[i]? = some l ∧ l.regs.st = .idle ∧
        exec (.decodeS tid len input) s =
          .next { s2 with
            dec := s2.dec.set i
              { regs := { l.regs with st := .run, tid := tid, cmd := 0x06#8, n := len, ip := 0, opos := 0,
                                      ph := 0#3, acc := 0#32 },
                inp := Memory.ofBytes len input, out := Memory.fresh (4 * len / 5) } })

/-- R64: when no unit of the right kind is IDLE, ENCODE, DECODE and DECODE.S are held: the command
waits, with no response, and nothing else changes. -/
def Obligations.HeldWhenNoUnitIdle : Prop :=
  ∀ (i : Instr) (s : State), s.idleUnits (unitKind i) = [] →
    exec i s = .next { s with held := s.held ++ [encode i] }

/-- R64: when several units of the right kind are IDLE, every choice is admitted (each IDLE unit is
taken under some pick), and the unit taken is always an IDLE one; the pick changes only the draws. -/
def Obligations.EveryIdleUnitCanBePicked : Prop :=
  ∀ (s : State) (k : UnitKind) (u : Nat) (us : List Nat), s.idleUnits k = u :: us →
    (∀ i s1, pickUnit u us s = (i, s1) →
      (∃ l, s.lane? ⟨k, i⟩ = some l ∧ l.regs.st = .idle) ∧
      s1 = { s with picks := s1.picks, draws := s1.draws }) ∧
    (∀ i l, s.lane? ⟨k, i⟩ = some l → l.regs.st = .idle →
      ∃ p, ∀ ps, (pickUnit u us { s with picks := p :: ps }).1 = i)

/-- R118: a request takes the first answer listed for its tid and no other; with none listed the
answer is either of the two, and the request always gets one. -/
def Obligations.AllocationAnswer : Prop :=
  ∀ (s : State) (t : Nat) (before after : List (Nat × Alloc)) (a : Alloc),
    (∀ p ∈ before, p.1 ≠ t) →
    (s.answers = before ++ (t, a) :: after → allocate t s = (a, { s with answers := before ++ after })) ∧
    (s.answers = before →
      allocate t s = (.grant, { s with draws := s.draws + 1 }) ∨
      allocate t s = (.deny, { s with draws := s.draws + 1 }))

/-- The frame of ENCODE, DECODE and DECODE.S when some unit of the right kind is IDLE: every unit but
the one picked keeps its record and its buffers (so every byte of its IN and OUT); the host's script,
its status log, the turns and the commands held stay. Either the instruction adds one response, of its
own tid, and the unit picked is untouched too; or it adds none, and the unit picked keeps its fault
record and now has the command's bytes as IN and an OUT with no byte written. -/
def Obligations.InstructionFrame : Prop :=
  ∀ (i : Instr) (s s1 t : State) (u : Nat) (us : List Nat) (j : Nat),
    s.idleUnits (unitKind i) = u :: us → pickUnit u us s = (j, s1) → exec i s = .next t →
    t.script = s.script ∧ t.polled = s.polled ∧ t.turns = s.turns ∧ t.held = s.held ∧
    t.picks = s1.picks ∧ t.enc.length = s.enc.length ∧ t.dec.length = s.dec.length ∧
    (∀ v : UnitId, v ≠ ⟨unitKind i, j⟩ → t.lane? v = s.lane? v) ∧
    ((∃ d, t.responses = s.responses ++ [d] ∧ d.resp.tid = i.tid ∧
        t.lane? ⟨unitKind i, j⟩ = s.lane? ⟨unitKind i, j⟩) ∨
     (t.responses = s.responses ∧
      ∃ l l', s.lane? ⟨unitKind i, j⟩ = some l ∧ t.lane? ⟨unitKind i, j⟩ = some l' ∧
        l'.regs.fkind = l.regs.fkind ∧ l'.regs.finfo = l.regs.finfo ∧
        ∀ a, l'.out.read a = none ∧ l'.inp.read a = if a < i.len then i.input[a]? else none))

/-! ### The steps of the units -/

/-- R82: the ENC_ACC step: the accumulator becomes `acc * 256 + b` for the next input byte, `ip` and
`ph` advance by one, and nothing else of the machine changes. -/
def Obligations.EncoderAccStep : Prop :=
  ∀ (s : State) (u : Nat) (ts : List Agent) (l : Lane) (b : Byte),
    s.turns = .unit ⟨.enc, u⟩ :: ts → s.enc[u]? = some l → l.regs.st = .run → l.regs.ph.toNat < 4 →
    l.regs.ip < l.regs.n → l.inp.read l.regs.ip = some b →
    step s = .next { s with
      turns := ts,
      enc := s.enc.set u { l with regs := { l.regs with
        acc := BitVec.ofNat 32 (l.regs.acc.toNat * 256 + b.toNat),
        ip := l.regs.ip + 1, ph := l.regs.ph + 1 } } } ∧
    (l.regs.acc.toNat < 256 ^ l.regs.ph.toNat → l.regs.acc.toNat * 256 + b.toNat < 256 ^ (l.regs.ph.toNat + 1) ∧
      (BitVec.ofNat 32 (l.regs.acc.toNat * 256 + b.toNat)).toNat = l.regs.acc.toNat * 256 + b.toNat)

/-- R83: the ENC_EMIT step writes `FWD[(acc div 85^(4-j)) mod 85]` to `OUT[opos + j]` for j = 0..4,
then `opos` advances by 5 and `acc` and `ph` are cleared. Every other byte of OUT, and everything else
of the machine, stays. -/
def Obligations.EncoderEmitStep : Prop :=
  ∀ (s : State) (u : Nat) (ts : List Agent) (l : Lane),
    s.turns = .unit ⟨.enc, u⟩ :: ts → s.enc[u]? = some l → l.regs.st = .run → l.regs.ph.toNat = 4 →
    l.regs.opos + 5 ≤ l.out.size →
    ∃ m : Memory,
      step s = .next { s with
        turns := ts,
        enc := s.enc.set u { l with
          out := m, regs := { l.regs with opos := l.regs.opos + 5, acc := 0#32, ph := 0#3 } } } ∧
      m.size = l.out.size ∧ (l.out.wf = true → m.wf = true) ∧
      (∀ j < 5, m.read (l.regs.opos + j) =
        some (fwd ⟨l.regs.acc.toNat / 85 ^ (4 - j) % 85, Nat.mod_lt _ (by decide)⟩)) ∧
      (∀ a, a < l.regs.opos ∨ l.regs.opos + 5 ≤ a → m.read a = l.out.read a)

/-- R84: the ENC_DONE step responds OK with OUT_LEN = `opos` and INFO = 0 and the unit is IDLE. OUT
passes to the host with the response (R35). That the unit's IN is dropped here is the model's choice (log
entry 10). Nothing else of the machine changes. In every state the invariant holds in, `opos = 5n/4`
here. -/
def Obligations.EncoderDoneStep : Prop :=
  ∀ (s : State) (u : Nat) (ts : List Agent) (l : Lane),
    s.turns = .unit ⟨.enc, u⟩ :: ts → s.enc[u]? = some l → l.regs.st = .run → l.regs.ph.toNat = 0 →
    l.regs.ip = l.regs.n →
    step s = .next { s with
      turns := ts,
      enc := s.enc.set u { regs := { l.regs with st := .idle }, inp := .absent, out := .absent },
      responses := s.responses ++
        [{ resp := { tid := l.regs.tid, status := .ok, outLen := l.regs.opos, info := 0 },
           out := l.out }] } ∧
    (BlockInv s → l.regs.opos = 5 * l.regs.n / 4)

/-- R98 with R115 and R116: the DEC_ACC step. A code in 32..127 adds its digit, `acc <- wrap32(acc * 85 +
digit)`, and `ip` and `ph` advance by one. Any other code puts the unit in FAULT with `fkind` =
UNDEFINED_LOOKUP and `finfo` = (ip, c); every other field, IN and OUT stay as they were and there is no
response; in every state the invariant holds in, the command is then DECODE, not DECODE.S. Nothing else
of the machine changes. -/
def Obligations.DecoderAccStep : Prop :=
  ∀ (s : State) (u : Nat) (ts : List Agent) (l : Lane) (c : Byte),
    s.turns = .unit ⟨.dec, u⟩ :: ts → s.dec[u]? = some l → l.regs.st = .run → l.regs.ph.toNat < 5 →
    l.regs.ip < l.regs.n → l.inp.read l.regs.ip = some c →
    (32 ≤ c.toNat → c.toNat ≤ 127 →
      ∃ d, digitOf c = some d ∧ (isZ85 c = false → d = 0) ∧
        step s = .next { s with
          turns := ts,
          dec := s.dec.set u { l with regs := { l.regs with
            acc := BitVec.ofNat 32 (l.regs.acc.toNat * 85 + d),
            ip := l.regs.ip + 1, ph := l.regs.ph + 1 } } }) ∧
    (c.toNat < 32 ∨ 127 < c.toNat →
      step s = .next { s with
        turns := ts,
        dec := s.dec.set u { l with regs := { l.regs with
          st := .fault, fkind := .undefinedLookup, finfo := (l.regs.ip, c) } } } ∧
      (BlockInv s → l.regs.cmd = 0x02#8))

/-- R99: the DEC_EMIT step writes the four bytes of `acc`, most significant first, to `OUT[opos ..
opos + 4)`, then `opos` advances by 4 and `acc` and `ph` are cleared. Every other byte of OUT, and
everything else of the machine, stays. -/
def Obligations.DecoderEmitStep : Prop :=
  ∀ (s : State) (u : Nat) (ts : List Agent) (l : Lane),
    s.turns = .unit ⟨.dec, u⟩ :: ts → s.dec[u]? = some l → l.regs.st = .run → l.regs.ph.toNat = 5 →
    l.regs.opos + 4 ≤ l.out.size →
    ∃ m : Memory,
      step s = .next { s with
        turns := ts,
        dec := s.dec.set u { l with
          out := m, regs := { l.regs with opos := l.regs.opos + 4, acc := 0#32, ph := 0#3 } } } ∧
      m.size = l.out.size ∧ (l.out.wf = true → m.wf = true) ∧
      (∀ j < 4, m.read (l.regs.opos + j) =
        some (BitVec.ofNat 8 (l.regs.acc.toNat / 256 ^ (3 - j) % 256))) ∧
      (∀ a, a < l.regs.opos ∨ l.regs.opos + 4 ≤ a → m.read a = l.out.read a)

/-- R100: the DEC_DONE step responds OK with OUT_LEN = `opos` and INFO = 0 and the unit is IDLE. OUT
passes to the host with the response (R35). That the unit's IN is dropped here is the model's choice (log
entry 10). Nothing else of the machine changes. In every state the invariant holds in, `opos = 4n/5`
here. -/
def Obligations.DecoderDoneStep : Prop :=
  ∀ (s : State) (u : Nat) (ts : List Agent) (l : Lane),
    s.turns = .unit ⟨.dec, u⟩ :: ts → s.dec[u]? = some l → l.regs.st = .run → l.regs.ph.toNat = 0 →
    l.regs.ip = l.regs.n →
    step s = .next { s with
      turns := ts,
      dec := s.dec.set u { regs := { l.regs with st := .idle }, inp := .absent, out := .absent },
      responses := s.responses ++
        [{ resp := { tid := l.regs.tid, status := .ok, outLen := l.regs.opos, info := 0 },
           out := l.out }] } ∧
    (BlockInv s → l.regs.opos = 4 * l.regs.n / 5)

/-- R116 and R130: a unit that is in FAULT or IDLE has no enabled step; its turn changes nothing. -/
def Obligations.FaultedOrIdleUnitHasNoStep : Prop :=
  ∀ (s : State) (u : UnitId) (ts : List Agent) (l : Lane),
    s.turns = .unit u :: ts → s.lane? u = some l → l.regs.st ≠ .run →
    step s = .next { s with turns := ts } ∧ u ∉ (enabledAgents s).filterMap
      (fun a => match a with | .unit v => some v | .host => none | .dispatcher _ => none)

/-! ### Rules about every step -/

/-- R19: every step moves each unit's `st` only as listed: IDLE to RUN, RUN to IDLE, RUN to FAULT for a
decoder, no change, or to IDLE by reset. -/
def Obligations.UnitStateTransitions : Prop :=
  ∀ (s t : State) (u : UnitId) (l : Lane), step s = .next t → s.lane? u = some l →
    ∃ l', t.lane? u = some l' ∧
      (StMove u.kind l.regs.st l'.regs.st ∨ (ResetTurn s ∧ l'.regs.st = .idle))

/-- R19 and R121: FAULT is left only by reset: any other step leaves a faulted unit, its fault record
and its buffers exactly as they are. -/
def Obligations.FaultIsSticky : Prop :=
  ∀ (s t : State) (u : UnitId) (l : Lane), step s = .next t → s.lane? u = some l →
    l.regs.st = .fault → ¬ ResetTurn s → t.lane? u = some l

/-- R20: a step without reset writes `cmd`, `n` and `tid` only on the IDLE to RUN transition. -/
def Obligations.LatchedFieldsKept : Prop :=
  ∀ (s t : State) (u : UnitId) (l l' : Lane), step s = .next t → ¬ ResetTurn s →
    s.lane? u = some l → t.lane? u = some l' →
    ¬ (l.regs.st = .idle ∧ l'.regs.st = .run) →
    l'.regs.cmd = l.regs.cmd ∧ l'.regs.n = l.regs.n ∧ l'.regs.tid = l.regs.tid

/-- R21: a step without reset writes `fkind` and `finfo` only on the RUN to FAULT transition. -/
def Obligations.FaultRecordKept : Prop :=
  ∀ (s t : State) (u : UnitId) (l l' : Lane), step s = .next t → ¬ ResetTurn s →
    s.lane? u = some l → t.lane? u = some l' →
    ¬ (l.regs.st = .run ∧ l'.regs.st = .fault) →
    l'.regs.fkind = l.regs.fkind ∧ l'.regs.finfo = l.regs.finfo

/-- R28 and R47: the turn of one unit writes no other unit's record or buffers, holds or hands over no
command, and adds at most its own response. -/
def Obligations.UnitTurnTouchesNoOther : Prop :=
  ∀ (s t : State) (u v : UnitId), step s = .next t → (chooseAgent s).1 = some (.unit u) → v ≠ u →
    t.lane? v = s.lane? v ∧ t.held = s.held ∧ t.script = s.script ∧ t.answers = s.answers ∧
    t.picks = s.picks ∧
    (t.responses = s.responses ∨ ∃ d, t.responses = s.responses ++ [d] ∧
      ∃ l, s.lane? u = some l ∧ d.resp.tid = l.regs.tid)

/-- While a unit is in RUN, only its own turn or a reset changes it or its buffers: the interleaving
of the other agents cannot reach it (R28, R47). -/
def Obligations.RunningUnitUndisturbed : Prop :=
  ∀ (s t : State) (u : UnitId) (l : Lane), step s = .next t → s.lane? u = some l →
    l.regs.st = .run → (chooseAgent s).1 ≠ some (.unit u) → ¬ ResetTurn s → t.lane? u = some l

/-- R17 and R18: in a turn of a RUN unit that ends no command, `ph < G` and `ip` and `ph` advance by
exactly 1 (and `opos` stays), or `ph = G` and `opos` advances by exactly 5 for an encoder and 4 for a
decoder (and `ip` stays), with `ph` cleared; with neither enabled the unit stays as it is. -/
def Obligations.SequencingAdvances : Prop :=
  ∀ (s t : State) (u : UnitId) (l l' : Lane), step s = .next t →
    (chooseAgent s).1 = some (.unit u) → s.lane? u = some l → t.lane? u = some l' →
    l.regs.st = .run → l'.regs.st = .run →
    (l' = l ∧ ¬ (l.regs.ph.toNat < groupIn u.kind ∧ l.regs.ip < l.regs.n) ∧ l.regs.ph.toNat ≠ groupIn u.kind) ∨
    (l.regs.ph.toNat < groupIn u.kind ∧ l'.regs.ip = l.regs.ip + 1 ∧ l'.regs.ph.toNat = l.regs.ph.toNat + 1 ∧
      l'.regs.opos = l.regs.opos ∧ l'.out = l.out) ∨
    (l.regs.ph.toNat = groupIn u.kind ∧ l'.regs.ip = l.regs.ip ∧ l'.regs.ph = 0#3 ∧
      l'.regs.opos = l.regs.opos + groupOut u.kind ∧ l'.regs.acc = 0#32)

/-- R27, R29 and R60: the response history only grows, by at most one response a step, and a response
belongs to a command: the one that the host, whose turn it is, issues in that step; the held one that
the dispatcher, whose turn it is, takes up; or the one that the unit whose turn it is runs. -/
def Obligations.EveryResponseHasACommand : Prop :=
  ∀ s t : State, step s = .next t →
    t.responses = s.responses ∨
    ∃ d, t.responses = s.responses ++ [d] ∧
      ((∃ c, (chooseAgent s).1 = some .host ∧
          (s.script.head? = some (.issue c) ∨ s.script.head? = some (.post c)) ∧ c.tid = d.resp.tid) ∨
       (∃ m c, (chooseAgent s).1 = some (.dispatcher m) ∧ s.held[m]? = some c ∧ c.tid = d.resp.tid) ∨
       (∃ u l, (chooseAgent s).1 = some (.unit u) ∧ s.lane? u = some l ∧ l.regs.st = .run ∧
          l.regs.tid = d.resp.tid ∧ d.resp.status = .ok ∧ d.out = l.out))

/-! ### Reset -/

/-- R29 and R135: the values after power-up that the spec gives: `st` IDLE, `cmd`, `n`, `ip`, `opos`,
`ph`, `acc` 0, `fkind` NONE, `finfo` 0 for every unit, no command in flight, an empty history. -/
def Obligations.PowerUpState : Prop :=
  (∀ l ∈ State.reset.enc ++ State.reset.dec,
    l.regs.st = .idle ∧ l.regs.cmd = 0x00#8 ∧ l.regs.n = 0 ∧ l.regs.ip = 0 ∧ l.regs.opos = 0 ∧
    l.regs.ph = 0#3 ∧ l.regs.acc = 0#32 ∧ l.regs.fkind = .noFault ∧ l.regs.finfo = (0, 0x00#8)) ∧
  State.reset.enc ≠ [] ∧ State.reset.dec ≠ [] ∧ State.reset.held = [] ∧ State.reset.responses = []

/-- R132 and R133: the host's reset acts on every unit at once, from any state of the block: each
unit's fields take the values of R29, every held, running or faulted command is abandoned with no
response, and the response history stays. -/
def Obligations.ResetStep : Prop :=
  ∀ (s : State) (rest : List HostAct) (ts : List Agent),
    s.turns = .host :: ts → s.script = .reset :: rest →
    ∃ t, step s = .next t ∧ t.held = [] ∧ t.responses = s.responses ∧ t.script = rest ∧ t.turns = ts ∧
      t.enc.length = s.enc.length ∧ t.dec.length = s.dec.length ∧ Final t ∧
      ∀ l ∈ t.enc ++ t.dec,
        l.regs.st = .idle ∧ l.regs.cmd = 0x00#8 ∧ l.regs.n = 0 ∧ l.regs.ip = 0 ∧ l.regs.opos = 0 ∧
        l.regs.ph = 0#3 ∧ l.regs.acc = 0#32 ∧ l.regs.fkind = .noFault ∧ l.regs.finfo = (0, 0x00#8)

/-! ### The host -/

/-- R23: reading a unit's `st` gives its value and changes nothing of the block. -/
def Obligations.StatusRead : Prop :=
  ∀ (s : State) (u : UnitId) (l : Lane) (rest : List HostAct) (ts : List Agent),
    s.turns = .host :: ts → s.script = .readStatus u :: rest → s.lane? u = some l →
    step s = .next { s with turns := ts, script := rest, polled := s.polled ++ [(u, l.regs.st)] }

/-- R67's `WAIT t`: the host goes on once a response of `t` exists and no later command of `t` is in
flight, and until then nothing changes (log entry 2). -/
def Obligations.WaitHoldsTheHost : Prop :=
  ∀ (s : State) (t : Nat) (rest : List HostAct) (ts : List Agent),
    s.turns = .host :: ts → s.script = .wait t :: rest →
    ((∀ d ∈ s.responses, d.resp.tid ≠ t) → step s = .next { s with turns := ts }) ∧
    ((∃ d ∈ s.responses, d.resp.tid = t) → (∀ c ∈ s.held, c.tid ≠ t) →
      (∀ l ∈ s.enc ++ s.dec, l.regs.st = .idle ∨ l.regs.tid ≠ t) →
      step s = .next { s with turns := ts, script := rest })

/-- R140: the host reads OUT only of an OK response and only below OUT_LEN, and in every state the
invariant holds in it finds a byte there for every such index. -/
def Obligations.OutputRead : Prop :=
  ∀ (s : State) (d : Delivery) (a : Nat), BlockInv s → d ∈ s.responses →
    ((d.hostRead a).isSome ↔ d.resp.status = .ok ∧ a < d.resp.outLen)

/-- R147: a state with a faulted unit, or with a command held or running, is not final. -/
def Obligations.UnfinishedIsNotFinal : Prop :=
  ∀ s : State, ((∃ u l, s.lane? u = some l ∧ l.regs.st ≠ .idle) ∨ s.held ≠ []) → ¬ Final s

/-! ### Invariants -/

/-- The invariant of the block (R24, R26, R60 to R63, R114, R116) holds at power-up. -/
def Obligations.PowerUpMeetsBlockInv : Prop := BlockInv State.reset

/-- Every step of every agent keeps the invariant of the block: R26 for every running unit, OUT
holding exactly the groups completed so far, R24 for every IDLE unit, R115 for every faulted one, every
response as R60 to R63 say, and every memory in its canonical form. -/
def Obligations.StepKeepsBlockInv : Prop :=
  ∀ s t : State, BlockInv s → step s = .next t → BlockInv t

/-- R85 and R101: in RUN exactly one of ACC, EMIT and DONE is enabled in every state the invariant
holds in. -/
def Obligations.OneStepEnabledInRun : Prop :=
  ∀ (s : State) (u : UnitId) (l : Lane), BlockInv s → s.lane? u = some l → l.regs.st = .run →
    let A := l.regs.ph.toNat < groupIn u.kind ∧ l.regs.ip < l.regs.n
    let E := l.regs.ph.toNat = groupIn u.kind
    let D := l.regs.ph.toNat = 0 ∧ l.regs.ip = l.regs.n
    (A ∨ E ∨ D) ∧ ¬ (A ∧ E) ∧ ¬ (A ∧ D) ∧ ¬ (E ∧ D) ∧ unitEnabled u s = true

/-- No step stops: from every state that meets the invariant and whose host supplies the bytes of its
commands (R59), a step of any agent answers a next state, and the host's duty still stands there. -/
def Obligations.StepNeverStops : Prop :=
  ∀ s : State, BlockInv s → Supplied s → ∃ t, step s = .next t ∧ Supplied t

/-- R144: every turn of a RUN unit brings its command one step nearer its end, or ends it, or faults:
the steps left fall by exactly one, and the command ends with its response when one is left. -/
def Obligations.EveryTurnProgresses : Prop :=
  ∀ (s t : State) (u : UnitId) (l l' : Lane), BlockInv s → step s = .next t →
    (chooseAgent s).1 = some (.unit u) → s.lane? u = some l → l.regs.st = .run →
    t.lane? u = some l' →
    (l'.regs.st = .run ∧ stepsLeft u.kind l'.regs + 1 = stepsLeft u.kind l.regs ∧
      t.responses = s.responses) ∨
    (l'.regs.st = .idle ∧ stepsLeft u.kind l.regs = 1 ∧
      ∃ m, t.responses = s.responses ++
        [{ resp := { tid := l.regs.tid, status := .ok, outLen := outLen u.kind l.regs.n, info := 0 },
           out := m }]) ∨
    (l'.regs.st = .fault ∧ u.kind = .dec ∧ l.regs.cmd = 0x02#8 ∧ t.responses = s.responses)

/-! ### Whole runs -/

/-- R85: ENCODE with GRANT, on the unit picked, whatever the rest of the block and the host are doing:
after `n + n/4 + 1` turns of that unit, and no fewer, it has responded OK with exactly the output of
Z85enc; the unit is IDLE, its IN and OUT are dropped (log entry 10), and nothing else has changed. -/
def Obligations.EncodeRunsToZ85enc : Prop :=
  ∀ (s s1 s2 : State) (u : Nat) (us : List Nat) (i tid len : Nat) (input : List Byte)
    (rest : List Agent),
    input.length = len → len % 4 = 0 → 0 < len → s.idleUnits .enc = u :: us →
    pickUnit u us s = (i, s1) → allocate tid s1 = (.grant, s2) →
    s.turns = List.replicate (len + len / 4 + 1) (.unit ⟨.enc, i⟩) ++ rest →
    ∃ (l : Lane) (t : State), s.enc[i]? = some l ∧ exec (.encode tid len input) s = .next t ∧
      z85enc len input .grant = .answer .ok (5 * len / 4) 0 (encBytes input) ∧
      Sys2Proof.core.run (len + len / 4 + 1) t = .next { s2 with
        turns := rest,
        enc := s2.enc.set i
          { regs := { l.regs with st := .idle, tid := tid, cmd := 0x01#8, n := len, ip := len,
                                  opos := 5 * len / 4, ph := 0#3, acc := 0#32 },
            inp := .absent, out := .absent },
        responses := s.responses ++
          [{ resp := { tid := tid, status := .ok, outLen := 5 * len / 4, info := 0 },
             out := Memory.ofBytes (5 * len / 4) (encBytes input) }] } ∧
      ∀ k < len + len / 4 + 1, ∃ w : State, Sys2Proof.core.run k t = .next w ∧
        w.responses = s.responses

/-- R101: DECODE with GRANT of a text whose codes all lie in 32..127: after `n + n/5 + 1` turns of the
unit, and no fewer, it has responded OK with exactly the output of Z85dec; its IN and OUT are dropped (log
entry 10), and nothing else has changed. -/
def Obligations.DecodeRunsToZ85dec : Prop :=
  ∀ (s s1 s2 : State) (u : Nat) (us : List Nat) (i tid len : Nat) (input : List Byte)
    (rest : List Agent),
    input.length = len → len % 5 = 0 → 0 < len → (∀ c ∈ input, inRange c = true) →
    s.idleUnits .dec = u :: us → pickUnit u us s = (i, s1) → allocate tid s1 = (.grant, s2) →
    s.turns = List.replicate (len + len / 5 + 1) (.unit ⟨.dec, i⟩) ++ rest →
    ∃ (l : Lane) (t : State), s.dec[i]? = some l ∧ exec (.decode tid len input) s = .next t ∧
      z85dec .perm len input .grant = .answer .ok (4 * len / 5) 0 (decBytes input) ∧
      Sys2Proof.core.run (len + len / 5 + 1) t = .next { s2 with
        turns := rest,
        dec := s2.dec.set i
          { regs := { l.regs with st := .idle, tid := tid, cmd := 0x02#8, n := len, ip := len,
                                  opos := 4 * len / 5, ph := 0#3, acc := 0#32 },
            inp := .absent, out := .absent },
        responses := s.responses ++
          [{ resp := { tid := tid, status := .ok, outLen := 4 * len / 5, info := 0 },
             out := Memory.ofBytes (4 * len / 5) (decBytes input) }] } ∧
      ∀ k < len + len / 5 + 1, ∃ w : State, Sys2Proof.core.run k t = .next w ∧
        w.responses = s.responses

/-- R101 for DECODE.S: with GRANT of a text of alphabet characters only, after `n + n/5 + 1` turns of the
unit, and no fewer, it has responded OK with exactly the output of Z85dec; its IN and OUT are dropped (log
entry 10), and nothing else has changed. -/
def Obligations.DecodeStrictRunsToZ85dec : Prop :=
  ∀ (s s1 s2 : State) (u : Nat) (us : List Nat) (i tid len : Nat) (input : List Byte)
    (rest : List Agent),
    input.length = len → len % 5 = 0 → 0 < len → (∀ c ∈ input, isZ85 c = true) →
    s.idleUnits .dec = u :: us → pickUnit u us s = (i, s1) → allocate tid s1 = (.grant, s2) →
    s.turns = List.replicate (len + len / 5 + 1) (.unit ⟨.dec, i⟩) ++ rest →
    ∃ (l : Lane) (t : State), s.dec[i]? = some l ∧ exec (.decodeS tid len input) s = .next t ∧
      z85dec .strict len input .grant = .answer .ok (4 * len / 5) 0 (decBytes input) ∧
      Sys2Proof.core.run (len + len / 5 + 1) t = .next { s2 with
        turns := rest,
        dec := s2.dec.set i
          { regs := { l.regs with st := .idle, tid := tid, cmd := 0x06#8, n := len, ip := len,
                                  opos := 4 * len / 5, ph := 0#3, acc := 0#32 },
            inp := .absent, out := .absent },
        responses := s.responses ++
          [{ resp := { tid := tid, status := .ok, outLen := 4 * len / 5, info := 0 },
             out := Memory.ofBytes (4 * len / 5) (decBytes input) }] } ∧
      ∀ k < len + len / 5 + 1, ∃ w : State, Sys2Proof.core.run k t = .next w ∧
        w.responses = s.responses

/-- R101, R116 and R120: DECODE with GRANT of a text with a code outside 32..127, the least such index
being `x`: after `x + x/5 + 1` turns the unit is in FAULT with `finfo` = (x, c), no response has come,
and OUT holds exactly the bytes of the groups wholly before the offending one; this is the fault of
Z85dec. -/
def Obligations.DecodeFaultsAtLeastIndex : Prop :=
  ∀ (s s1 s2 : State) (u : Nat) (us : List Nat) (i tid len x : Nat) (c : Byte) (input : List Byte)
    (rest : List Agent),
    input.length = len → len % 5 = 0 → input[x]? = some c → inRange c = false →
    (∀ y < x, ∀ d, input[y]? = some d → inRange d = true) →
    s.idleUnits .dec = u :: us → pickUnit u us s = (i, s1) → allocate tid s1 = (.grant, s2) →
    s.turns = List.replicate (x + x / 5 + 1) (.unit ⟨.dec, i⟩) ++ rest →
    ∃ t w : State, exec (.decode tid len input) s = .next t ∧
      Sys2Proof.core.run (x + x / 5 + 1) t = .next w ∧ w.responses = s.responses ∧
      z85dec .perm len input .grant = .fault x c (decBytes (input.take (5 * (x / 5)))) ∧
      ∃ l, w.lane? ⟨.dec, i⟩ = some l ∧ l.regs.st = .fault ∧ l.regs.fkind = .undefinedLookup ∧
        l.regs.finfo = (x, c) ∧ l.regs.ip = x ∧ l.regs.ph.toNat = x % 5 ∧ l.regs.opos = 4 * (x / 5) ∧
        l.regs.tid = tid ∧ l.regs.cmd = 0x02#8 ∧ l.regs.n = len ∧
        l.out = Memory.ofBytes (4 * len / 5) (decBytes (input.take (5 * (x / 5))))

/-- R88 and R104: the ACCEPT step of an instruction depends only on the command and the host's answer,
not on earlier commands: from any two states, on IDLE units that the same pick takes and with the same
answer, the instruction leaves both units with equal fields (apart from the fault record, which ACCEPT
does not write) and equal buffers, or answers both with the same response. -/
def Obligations.NoStateAcrossCommands : Prop :=
  ∀ (i : Instr) (s s' t t' : State) (j j' : Nat) (a : Alloc),
    s.idleUnits (unitKind i) = [j] → s'.idleUnits (unitKind i) = [j'] →
    (allocate i.tid s).1 = a → (allocate i.tid s').1 = a →
    exec i s = .next t → exec i s' = .next t' →
    (∃ d, t.responses = s.responses ++ [d] ∧ t'.responses = s'.responses ++ [d]) ∨
    (t.responses = s.responses ∧ t'.responses = s'.responses ∧
      ∃ l l', t.lane? ⟨unitKind i, j⟩ = some l ∧ t'.lane? ⟨unitKind i, j'⟩ = some l' ∧
        l'.inp = l.inp ∧ l'.out = l.out ∧
        l' = { l with regs := { l.regs with fkind := l'.regs.fkind, finfo := l'.regs.finfo } })

/-! ### Fair executions -/

/-- R144: in a weakly fair execution, from any state that meets the invariant. (1) Every accepted command
comes to its end: while its unit stays in RUN there is a step at which the host resets the block, or the
unit's own turn faults (DECODE only), or the unit's own turn ends the command with the OK response and the
whole output; in the last case the unit has had exactly the turns it needed, `n + n/4 + 1` of them after
ACCEPT for ENCODE and `n + n/5 + 1` for DECODE and DECODE.S. (2) When the host has nothing more to do and
no unit faults, the block comes to a final state (R147): every held command has been dispatched and has
ended. -/
def Obligations.FairExecutionsComplete : Prop :=
  ∀ run : Nat → State, Execution run → WeaklyFair run → BlockInv (run 0) →
    (∀ (k : Nat) (u : UnitId) (l : Lane), (run k).lane? u = some l → l.regs.st = .run →
      ∃ e ≥ k,
        (∀ j, k ≤ j → j ≤ e → (run j).status u = some .run) ∧ (∀ j, k ≤ j → j < e → ¬ ResetTurn (run j)) ∧
        (ResetTurn (run e) ∨
          (Takes (run e) (.unit u) ∧ (run (e + 1)).status u = some .fault ∧ l.regs.cmd = 0x02#8) ∨
          (Takes (run e) (.unit u) ∧ (run (e + 1)).status u = some .idle ∧
            unitTurns run u (e + 1) = unitTurns run u k + stepsLeft u.kind l.regs ∧
            (l.regs.ip = 0 → stepsLeft u.kind l.regs = l.regs.n + l.regs.n / groupIn u.kind + 1) ∧
            (run (e + 1)).responses = (run e).responses ++
              [{ resp := { tid := l.regs.tid, status := .ok, outLen := outLen u.kind l.regs.n, info := 0 },
                 out := Memory.ofBytes (outLen u.kind l.regs.n)
                   (groupBytes u.kind (l.inp.first l.regs.n)) }]))) ∧
    (∀ k : Nat, (run k).script = [] → (∀ j ≥ k, ∀ u, (run j).status u ≠ some .fault) →
      ∃ e ≥ k, Final (run e))
end

