-- ==== Sys2Proof/Laws/State.lean ====
section
/-! SUPPORT. What each update of the state does to each field, one lemma per field, so that no later proof unfolds a record update. -/

namespace Sys2Proof.Machine

@[simp] theorem State.setLanes_responses (k : UnitKind) (ls : List Lane) (s : State) :
    (s.setLanes k ls).responses = s.responses := by cases k <;> rfl

@[simp] theorem State.setLanes_held (k : UnitKind) (ls : List Lane) (s : State) :
    (s.setLanes k ls).held = s.held := by cases k <;> rfl

@[simp] theorem State.setLanes_script (k : UnitKind) (ls : List Lane) (s : State) :
    (s.setLanes k ls).script = s.script := by cases k <;> rfl

@[simp] theorem State.setLanes_polled (k : UnitKind) (ls : List Lane) (s : State) :
    (s.setLanes k ls).polled = s.polled := by cases k <;> rfl

@[simp] theorem State.setLanes_turns (k : UnitKind) (ls : List Lane) (s : State) :
    (s.setLanes k ls).turns = s.turns := by cases k <;> rfl

@[simp] theorem State.setLanes_picks (k : UnitKind) (ls : List Lane) (s : State) :
    (s.setLanes k ls).picks = s.picks := by cases k <;> rfl

@[simp] theorem State.setLanes_answers (k : UnitKind) (ls : List Lane) (s : State) :
    (s.setLanes k ls).answers = s.answers := by cases k <;> rfl

@[simp] theorem State.setLanes_draws (k : UnitKind) (ls : List Lane) (s : State) :
    (s.setLanes k ls).draws = s.draws := by cases k <;> rfl

@[simp] theorem State.setLanes_lanes (k : UnitKind) (ls : List Lane) (s : State) :
    (s.setLanes k ls).lanes k = ls := by cases k <;> rfl

@[simp] theorem State.lanes_enc (s : State) :
    s.lanes .enc = s.enc := rfl

@[simp] theorem State.lanes_dec (s : State) :
    s.lanes .dec = s.dec := rfl

@[simp] theorem State.setLanes_enc_enc (ls : List Lane) (s : State) :
    (s.setLanes .enc ls).enc = ls := rfl

@[simp] theorem State.setLanes_enc_dec (ls : List Lane) (s : State) :
    (s.setLanes .enc ls).dec = s.dec := rfl

@[simp] theorem State.setLanes_dec_enc (ls : List Lane) (s : State) :
    (s.setLanes .dec ls).enc = s.enc := rfl

@[simp] theorem State.setLanes_dec_dec (ls : List Lane) (s : State) :
    (s.setLanes .dec ls).dec = ls := rfl

theorem State.setLanes_lanes_ne {k k' : UnitKind} (h : k' ≠ k) (ls : List Lane) (s : State) :
    (s.setLanes k ls).lanes k' = s.lanes k' := by
  cases k <;> cases k' <;> first | rfl | exact absurd rfl h

@[simp] theorem State.setLane_responses (u : UnitId) (l : Lane) (s : State) :
    (s.setLane u l).responses = s.responses := by simp [State.setLane]

@[simp] theorem State.setLane_held (u : UnitId) (l : Lane) (s : State) :
    (s.setLane u l).held = s.held := by simp [State.setLane]

@[simp] theorem State.setLane_script (u : UnitId) (l : Lane) (s : State) :
    (s.setLane u l).script = s.script := by simp [State.setLane]

@[simp] theorem State.setLane_polled (u : UnitId) (l : Lane) (s : State) :
    (s.setLane u l).polled = s.polled := by simp [State.setLane]

@[simp] theorem State.setLane_turns (u : UnitId) (l : Lane) (s : State) :
    (s.setLane u l).turns = s.turns := by simp [State.setLane]

@[simp] theorem State.setLane_picks (u : UnitId) (l : Lane) (s : State) :
    (s.setLane u l).picks = s.picks := by simp [State.setLane]

@[simp] theorem State.setLane_answers (u : UnitId) (l : Lane) (s : State) :
    (s.setLane u l).answers = s.answers := by simp [State.setLane]

@[simp] theorem State.setLane_draws (u : UnitId) (l : Lane) (s : State) :
    (s.setLane u l).draws = s.draws := by simp [State.setLane]

@[simp] theorem State.setLane_lanes (u : UnitId) (l : Lane) (s : State) :
    (s.setLane u l).lanes u.kind = (s.lanes u.kind).set u.idx l := by simp [State.setLane]

theorem State.setLane_lanes_ne {u : UnitId} {k : UnitKind} (h : k ≠ u.kind) (l : Lane) (s : State) :
    (s.setLane u l).lanes k = s.lanes k := State.setLanes_lanes_ne h _ s

theorem State.lane?_setLane_self {u : UnitId} {l l' : Lane} {s : State} (h : s.lane? u = some l') :
    (s.setLane u l).lane? u = some l := by
  obtain ⟨hlt, -⟩ := List.getElem?_eq_some_iff.mp h
  simp [State.lane?, hlt]

theorem State.lane?_setLane_ne {u v : UnitId} (h : v ≠ u) (l : Lane) (s : State) :
    (s.setLane u l).lane? v = s.lane? v := by
  obtain ⟨k, i⟩ := u
  obtain ⟨k', i'⟩ := v
  by_cases hk : k' = k
  · subst hk
    have hi : i ≠ i' := fun e => h (by rw [e])
    simp [State.lane?, State.setLane, hi]
  · rw [State.lane?, State.lane?, State.setLane_lanes_ne hk]

@[simp] theorem State.respond_enc (r : Response) (m : Memory) (s : State) :
    (s.respond r m).enc = s.enc := rfl

@[simp] theorem State.respond_dec (r : Response) (m : Memory) (s : State) :
    (s.respond r m).dec = s.dec := rfl

@[simp] theorem State.respond_held (r : Response) (m : Memory) (s : State) :
    (s.respond r m).held = s.held := rfl

@[simp] theorem State.respond_script (r : Response) (m : Memory) (s : State) :
    (s.respond r m).script = s.script := rfl

@[simp] theorem State.respond_polled (r : Response) (m : Memory) (s : State) :
    (s.respond r m).polled = s.polled := rfl

@[simp] theorem State.respond_turns (r : Response) (m : Memory) (s : State) :
    (s.respond r m).turns = s.turns := rfl

@[simp] theorem State.respond_picks (r : Response) (m : Memory) (s : State) :
    (s.respond r m).picks = s.picks := rfl

@[simp] theorem State.respond_answers (r : Response) (m : Memory) (s : State) :
    (s.respond r m).answers = s.answers := rfl

@[simp] theorem State.respond_draws (r : Response) (m : Memory) (s : State) :
    (s.respond r m).draws = s.draws := rfl

@[simp] theorem State.respond_responses (r : Response) (m : Memory) (s : State) :
    (s.respond r m).responses = s.responses ++ [{ resp := r, out := m }] := rfl

@[simp] theorem State.respond_lanes (r : Response) (m : Memory) (k : UnitKind) (s : State) :
    (s.respond r m).lanes k = s.lanes k := by cases k <;> rfl

@[simp] theorem State.respond_lane? (r : Response) (m : Memory) (u : UnitId) (s : State) :
    (s.respond r m).lane? u = s.lane? u := by simp [State.lane?]

@[simp] theorem answerNow_enc (t : Nat) (st : Status) (v : Nat) (s : State) :
    (answerNow t st v s).enc = s.enc := rfl

@[simp] theorem answerNow_dec (t : Nat) (st : Status) (v : Nat) (s : State) :
    (answerNow t st v s).dec = s.dec := rfl

@[simp] theorem answerNow_held (t : Nat) (st : Status) (v : Nat) (s : State) :
    (answerNow t st v s).held = s.held := rfl

@[simp] theorem answerNow_script (t : Nat) (st : Status) (v : Nat) (s : State) :
    (answerNow t st v s).script = s.script := rfl

@[simp] theorem answerNow_polled (t : Nat) (st : Status) (v : Nat) (s : State) :
    (answerNow t st v s).polled = s.polled := rfl

@[simp] theorem answerNow_turns (t : Nat) (st : Status) (v : Nat) (s : State) :
    (answerNow t st v s).turns = s.turns := rfl

@[simp] theorem answerNow_picks (t : Nat) (st : Status) (v : Nat) (s : State) :
    (answerNow t st v s).picks = s.picks := rfl

@[simp] theorem answerNow_answers (t : Nat) (st : Status) (v : Nat) (s : State) :
    (answerNow t st v s).answers = s.answers := rfl

@[simp] theorem answerNow_draws (t : Nat) (st : Status) (v : Nat) (s : State) :
    (answerNow t st v s).draws = s.draws := rfl

@[simp] theorem answerNow_responses (t : Nat) (st : Status) (v : Nat) (s : State) :
    (answerNow t st v s).responses = s.responses ++ [{ resp := { tid := t, status := st, outLen := 0, info := v }, out := .absent }] := rfl

@[simp] theorem answerNow_lanes (t : Nat) (st : Status) (v : Nat) (k : UnitKind) (s : State) :
    (answerNow t st v s).lanes k = s.lanes k := by cases k <;> rfl

@[simp] theorem answerNow_lane? (t : Nat) (st : Status) (v : Nat) (u : UnitId) (s : State) :
    (answerNow t st v s).lane? u = s.lane? u := by simp [State.lane?]

@[simp] theorem hold_enc (c : Command) (s : State) :
    (hold c s).enc = s.enc := rfl

@[simp] theorem hold_dec (c : Command) (s : State) :
    (hold c s).dec = s.dec := rfl

@[simp] theorem hold_responses (c : Command) (s : State) :
    (hold c s).responses = s.responses := rfl

@[simp] theorem hold_script (c : Command) (s : State) :
    (hold c s).script = s.script := rfl

@[simp] theorem hold_polled (c : Command) (s : State) :
    (hold c s).polled = s.polled := rfl

@[simp] theorem hold_turns (c : Command) (s : State) :
    (hold c s).turns = s.turns := rfl

@[simp] theorem hold_picks (c : Command) (s : State) :
    (hold c s).picks = s.picks := rfl

@[simp] theorem hold_answers (c : Command) (s : State) :
    (hold c s).answers = s.answers := rfl

@[simp] theorem hold_draws (c : Command) (s : State) :
    (hold c s).draws = s.draws := rfl

@[simp] theorem hold_held (c : Command) (s : State) :
    (hold c s).held = s.held ++ [c] := rfl

@[simp] theorem hold_lanes (c : Command) (k : UnitKind) (s : State) :
    (hold c s).lanes k = s.lanes k := by cases k <;> rfl

@[simp] theorem hold_lane? (c : Command) (u : UnitId) (s : State) : (hold c s).lane? u = s.lane? u := by
  simp [State.lane?]

@[simp] theorem resetBlock_responses (s : State) :
    (resetBlock s).responses = s.responses := rfl

@[simp] theorem resetBlock_script (s : State) :
    (resetBlock s).script = s.script := rfl

@[simp] theorem resetBlock_polled (s : State) :
    (resetBlock s).polled = s.polled := rfl

@[simp] theorem resetBlock_turns (s : State) :
    (resetBlock s).turns = s.turns := rfl

@[simp] theorem resetBlock_picks (s : State) :
    (resetBlock s).picks = s.picks := rfl

@[simp] theorem resetBlock_answers (s : State) :
    (resetBlock s).answers = s.answers := rfl

@[simp] theorem resetBlock_draws (s : State) :
    (resetBlock s).draws = s.draws := rfl

@[simp] theorem resetBlock_held (s : State) :
    (resetBlock s).held = [] := rfl

@[simp] theorem resetBlock_lanes (k : UnitKind) (s : State) :
    (resetBlock s).lanes k = (s.lanes k).map (fun _ => Lane.reset) := by cases k <;> rfl

/-! ### The units do not depend on the other fields -/

section OtherFields

variable (s : State) (r : List Delivery) (h : List Command) (sc : List HostAct)
  (p : List (UnitId × UnitSt)) (t : List Agent) (pk : List Nat) (a : List (Nat × Alloc)) (d : Nat)

@[simp] theorem State.lanes_mk (k : UnitKind) :
    State.lanes k { enc := s.enc, dec := s.dec, responses := r, held := h, script := sc, polled := p,
                    turns := t, picks := pk, answers := a, draws := d } = s.lanes k := by
  cases k <;> rfl

@[simp] theorem State.lane?_mk (u : UnitId) :
    State.lane? u { enc := s.enc, dec := s.dec, responses := r, held := h, script := sc, polled := p,
                    turns := t, picks := pk, answers := a, draws := d } = s.lane? u := by
  simp [State.lane?]

@[simp] theorem State.status_mk (u : UnitId) :
    State.status u { enc := s.enc, dec := s.dec, responses := r, held := h, script := sc, polled := p,
                     turns := t, picks := pk, answers := a, draws := d } = s.status u := by
  simp [State.status]

@[simp] theorem State.idleUnits_mk (k : UnitKind) :
    State.idleUnits k { enc := s.enc, dec := s.dec, responses := r, held := h, script := sc, polled := p,
                        turns := t, picks := pk, answers := a, draws := d } = s.idleUnits k := by
  simp [State.idleUnits]

end OtherFields

/-! ### One unit -/

@[simp] theorem Lane.start_st (c : Command) (n : Nat) (l : Lane) :
    (l.start c n).regs.st = .run := rfl

@[simp] theorem Lane.start_tid (c : Command) (n : Nat) (l : Lane) :
    (l.start c n).regs.tid = c.tid := rfl

@[simp] theorem Lane.start_cmd (c : Command) (n : Nat) (l : Lane) :
    (l.start c n).regs.cmd = c.cmd := rfl

@[simp] theorem Lane.start_n (c : Command) (n : Nat) (l : Lane) :
    (l.start c n).regs.n = c.len := rfl

@[simp] theorem Lane.start_ip (c : Command) (n : Nat) (l : Lane) :
    (l.start c n).regs.ip = 0 := rfl

@[simp] theorem Lane.start_opos (c : Command) (n : Nat) (l : Lane) :
    (l.start c n).regs.opos = 0 := rfl

@[simp] theorem Lane.start_ph (c : Command) (n : Nat) (l : Lane) :
    (l.start c n).regs.ph = 0#3 := rfl

@[simp] theorem Lane.start_acc (c : Command) (n : Nat) (l : Lane) :
    (l.start c n).regs.acc = 0#32 := rfl

@[simp] theorem Lane.start_fkind (c : Command) (n : Nat) (l : Lane) :
    (l.start c n).regs.fkind = l.regs.fkind := rfl

@[simp] theorem Lane.start_finfo (c : Command) (n : Nat) (l : Lane) :
    (l.start c n).regs.finfo = l.regs.finfo := rfl

@[simp] theorem Lane.start_inp (c : Command) (n : Nat) (l : Lane) :
    (l.start c n).inp = Memory.ofBytes c.len c.input := rfl

@[simp] theorem Lane.start_out (c : Command) (n : Nat) (l : Lane) :
    (l.start c n).out = Memory.fresh n := rfl

@[simp] theorem Lane.raiseFault_st (c : Byte) (l : Lane) :
    (l.raiseFault c).regs.st = .fault := rfl

@[simp] theorem Lane.raiseFault_tid (c : Byte) (l : Lane) :
    (l.raiseFault c).regs.tid = l.regs.tid := rfl

@[simp] theorem Lane.raiseFault_cmd (c : Byte) (l : Lane) :
    (l.raiseFault c).regs.cmd = l.regs.cmd := rfl

@[simp] theorem Lane.raiseFault_n (c : Byte) (l : Lane) :
    (l.raiseFault c).regs.n = l.regs.n := rfl

@[simp] theorem Lane.raiseFault_ip (c : Byte) (l : Lane) :
    (l.raiseFault c).regs.ip = l.regs.ip := rfl

@[simp] theorem Lane.raiseFault_opos (c : Byte) (l : Lane) :
    (l.raiseFault c).regs.opos = l.regs.opos := rfl

@[simp] theorem Lane.raiseFault_ph (c : Byte) (l : Lane) :
    (l.raiseFault c).regs.ph = l.regs.ph := rfl

@[simp] theorem Lane.raiseFault_acc (c : Byte) (l : Lane) :
    (l.raiseFault c).regs.acc = l.regs.acc := rfl

@[simp] theorem Lane.raiseFault_fkind (c : Byte) (l : Lane) :
    (l.raiseFault c).regs.fkind = .undefinedLookup := rfl

@[simp] theorem Lane.raiseFault_finfo (c : Byte) (l : Lane) :
    (l.raiseFault c).regs.finfo = (l.regs.ip, c) := rfl

@[simp] theorem Lane.raiseFault_inp (c : Byte) (l : Lane) :
    (l.raiseFault c).inp = l.inp := rfl

@[simp] theorem Lane.raiseFault_out (c : Byte) (l : Lane) :
    (l.raiseFault c).out = l.out := rfl

@[simp] theorem Lane.accumulated_st (a : U32) (l : Lane) :
    (l.accumulated a).regs.st = l.regs.st := rfl

@[simp] theorem Lane.accumulated_tid (a : U32) (l : Lane) :
    (l.accumulated a).regs.tid = l.regs.tid := rfl

@[simp] theorem Lane.accumulated_cmd (a : U32) (l : Lane) :
    (l.accumulated a).regs.cmd = l.regs.cmd := rfl

@[simp] theorem Lane.accumulated_n (a : U32) (l : Lane) :
    (l.accumulated a).regs.n = l.regs.n := rfl

@[simp] theorem Lane.accumulated_ip (a : U32) (l : Lane) :
    (l.accumulated a).regs.ip = l.regs.ip + 1 := rfl

@[simp] theorem Lane.accumulated_opos (a : U32) (l : Lane) :
    (l.accumulated a).regs.opos = l.regs.opos := rfl

@[simp] theorem Lane.accumulated_ph (a : U32) (l : Lane) :
    (l.accumulated a).regs.ph = l.regs.ph + 1 := rfl

/-- Within a group the 3 bits of `ph` do not wrap (R14). -/
theorem Lane.accumulated_ph_toNat {k : UnitKind} {l : Lane} (a : U32) (h : l.regs.ph.toNat < groupIn k) :
    (l.accumulated a).regs.ph.toNat = l.regs.ph.toNat + 1 := by
  have hg : groupIn k ≤ 5 := by cases k <;> decide
  rw [Lane.accumulated_ph, BitVec.toNat_add_of_lt (by simp; omega)]
  rfl

@[simp] theorem Lane.accumulated_acc (a : U32) (l : Lane) :
    (l.accumulated a).regs.acc = a := rfl

@[simp] theorem Lane.accumulated_fkind (a : U32) (l : Lane) :
    (l.accumulated a).regs.fkind = l.regs.fkind := rfl

@[simp] theorem Lane.accumulated_finfo (a : U32) (l : Lane) :
    (l.accumulated a).regs.finfo = l.regs.finfo := rfl

@[simp] theorem Lane.accumulated_inp (a : U32) (l : Lane) :
    (l.accumulated a).inp = l.inp := rfl

@[simp] theorem Lane.accumulated_out (a : U32) (l : Lane) :
    (l.accumulated a).out = l.out := rfl

end Sys2Proof.Machine
end

