-- ==== Sys2Proof/Laws/Dispatch.lean ====
section
/-! SUPPORT. What dispatch and an ACCEPT step can do: the choice of a unit, the host's answer, and the cases of every meaning. -/

namespace Sys2Proof.Machine

/-! ### Decoding -/

/-- A word decodes exactly when it is one of the three legal ones (R57). -/
theorem decodeWord_ok_iff (w : Byte) (o : Op) :
    decodeWord w = .ok o ↔
      (o = .encode ∧ w = 0x01#8) ∨ (o = .decode ∧ w = 0x02#8) ∨ (o = .decodeS ∧ w = 0x06#8) := by
  revert w
  cases o <;> decide

theorem decodeWord_encode (i : Instr) : ∃ o, decodeWord (opcode i) = .ok o ∧ o.instr (encode i) = i := by
  cases i
  · exact ⟨.encode, (by decide : decodeWord 0x01#8 = .ok .encode), rfl⟩
  · exact ⟨.decode, (by decide : decodeWord 0x02#8 = .ok .decode), rfl⟩
  · exact ⟨.decodeS, (by decide : decodeWord 0x06#8 = .ok .decodeS), rfl⟩

/-! ### The choice of a unit -/

theorem State.mem_idleUnits {s : State} {k : UnitKind} {i : Nat} :
    i ∈ s.idleUnits k ↔ ∃ l, s.lane? ⟨k, i⟩ = some l ∧ l.regs.st = .idle := by
  simp only [State.idleUnits, List.mem_filter, List.mem_range, State.status]
  constructor
  · rintro ⟨-, h⟩
    simpa using h
  · rintro ⟨l, hl, hi⟩
    refine ⟨(List.getElem?_eq_some_iff.mp hl).1, ?_⟩
    simp [hl, hi]

/-- The unit picked is one of those offered, and only the draws change (R64). -/
theorem pickUnit_cases {u i : Nat} {us : List Nat} {s s' : State} (h : pickUnit u us s = (i, s')) :
    i ∈ u :: us ∧ s' = { s with picks := s'.picks, draws := s'.draws } := by
  have hm : ∀ p, (u :: us).getD (p % (us.length + 1)) u ∈ u :: us := fun p => by
    have hlt : p % (us.length + 1) < (u :: us).length := Nat.mod_lt _ (by simp)
    rw [List.getD_eq_getElem?_getD, List.getElem?_eq_getElem hlt]
    exact List.getElem_mem hlt
  unfold pickUnit at h
  split at h <;> cases h
  · exact ⟨by simp, rfl⟩
  · exact ⟨hm _, rfl⟩
  · exact ⟨hm _, rfl⟩

/-- With one IDLE unit there is no choice (R64). -/
@[simp] theorem pickUnit_single (u : Nat) (s : State) : pickUnit u [] s = (u, s) := by
  simp [pickUnit]

/-! ### The host's answer -/

/-- An allocation request changes nothing but the host's answers and the draws (R118). -/
theorem allocate_cases {t : Nat} {a : Alloc} {s s' : State} (h : allocate t s = (a, s')) :
    s' = { s with answers := s'.answers, draws := s'.draws } := by
  unfold allocate at h
  split at h <;> cases h <;> rfl

/-! ### ACCEPT -/

theorem startUnit_lane {s : State} {u : UnitId} {l : Lane} (h : s.lane? u = some l) (c : Command)
    (n : Nat) : startUnit u c n s = s.setLane u (l.start c n) := by
  simp [startUnit, h]

/-- Everything an ACCEPT step can come to (R81, R97). -/
theorem accept_cases {u : UnitId} {c : Command} {v : Verdict} {s t : State}
    (h : accept u c v s = .next t) :
    (∃ st x, v = .answer st x ∧ t = answerNow c.tid st x s) ∨
    (∃ n s', v = .ask n ∧ allocate c.tid s = (.deny, s') ∧ t = answerNow c.tid .errAlloc n s') ∨
    (∃ n s', v = .ask n ∧ allocate c.tid s = (.grant, s') ∧ t = startUnit u c n s') := by
  unfold accept at h
  split at h
  · cases h
  · cases h; exact .inl ⟨_, _, rfl, rfl⟩
  · split at h <;> next e => cases h; first | exact .inr (.inl ⟨_, _, rfl, e, rfl⟩) | exact .inr (.inr ⟨_, _, rfl, e, rfl⟩)

/-- A dispatch holds the command when no unit of the kind is IDLE (R64). -/
theorem submit_held {k : UnitKind} {s : State} (h : s.idleUnits k = []) (c : Command) (v : Verdict) :
    submit k c v s = .next (hold c s) := by
  simp [submit, h]

/-- A dispatch with an IDLE unit is the ACCEPT step of the unit picked (R64). -/
theorem submit_picked {k : UnitKind} {s s' : State} {u i : Nat} {us : List Nat}
    (h : s.idleUnits k = u :: us) (hp : pickUnit u us s = (i, s')) (c : Command) (v : Verdict) :
    submit k c v s = accept ⟨k, i⟩ c v s' := by
  simp [submit, h, hp]

/-- The checks of an instruction's ACCEPT step (R81, R97). -/
def verdictOf (i : Instr) : Verdict :=
  match i with
  | .encode _ _ _ => encVerdict (encode i)
  | .decode _ _ _ => decVerdict false (encode i)
  | .decodeS _ _ _ => decVerdict true (encode i)

/-- Every meaning is the dispatch of the instruction's command to a unit of its kind (R64). -/
theorem exec_eq_submit (i : Instr) (s : State) :
    exec i s = submit (unitKind i) (encode i) (verdictOf i) s := by
  cases i <;> rfl

/-- Everything an instruction can come to. -/
theorem exec_cases {i : Instr} {s t : State} (h : exec i s = .next t) :
    (s.idleUnits (unitKind i) = [] ∧ t = hold (encode i) s) ∨
    ∃ j s1, j ∈ s.idleUnits (unitKind i) ∧ s1 = { s with picks := s1.picks, draws := s1.draws } ∧
      accept ⟨unitKind i, j⟩ (encode i) (verdictOf i) s1 = .next t := by
  rw [exec_eq_submit] at h
  cases hi : s.idleUnits (unitKind i) with
  | nil =>
    rw [submit_held hi] at h
    cases h
    exact .inl ⟨rfl, rfl⟩
  | cons u us =>
    obtain ⟨⟨j, s1⟩, hp⟩ : ∃ p, pickUnit u us s = p := ⟨_, rfl⟩
    rw [submit_picked hi hp] at h
    obtain ⟨hj, hs⟩ := pickUnit_cases hp
    exact .inr ⟨j, s1, hj, hs, h⟩

end Sys2Proof.Machine
end

