-- ==== Sys2Proof/Laws/Groups.lean ====
section
/-! SUPPORT. Facts about the ROMs' lookups and about the group functions over whole sequences. -/

namespace Sys2Proof.Machine

/-! ### Lookups -/

/-- `digitOf` by code, decided over the 256 codes (R73). -/
theorem digitOf_isSome (c : Byte) : (digitOf c).isSome = inRange c := by
  revert c; decide

theorem digitOf_lt (c : Byte) : ∀ d ∈ digitOf c, d < 85 := by
  revert c; decide

/-- Item 3 of R75 for digits. -/
theorem digitOf_fwd (d : Fin 85) : digitOf (fwd d) = some d.val := by
  revert d; decide

theorem isZ85_fwd (d : Fin 85) : isZ85 (fwd d) = true := by
  revert d; decide

/-- An alphabet character is the one of its digit (item 4 of R75). -/
theorem fwd_of_isZ85 (c : Byte) (h : isZ85 c = true) : ∃ d : Fin 85, digitOf c = some d.val ∧ fwd d = c := by
  have key : ∀ c : Byte, isZ85 c = true →
      ∃ h : (digitOf c).getD 0 < 85, digitOf c = some ((digitOf c).getD 0) ∧ fwd ⟨_, h⟩ = c := by decide
  obtain ⟨hd, e, hf⟩ := key c h
  exact ⟨⟨_, hd⟩, e, hf⟩

theorem inRange_of_isZ85 (c : Byte) (h : isZ85 c = true) : inRange c = true := by
  revert c; decide

theorem exists_digit_of_inRange {c : Byte} (h : inRange c = true) : ∃ d, digitOf c = some d ∧ d < 85 := by
  have hs := digitOf_isSome c
  rw [h] at hs
  obtain ⟨d, hd⟩ := Option.isSome_iff_exists.mp hs
  exact ⟨d, hd, digitOf_lt c d hd⟩

theorem digitOf_eq_none_iff (c : Byte) : digitOf c = none ↔ inRange c = false := by
  rw [← digitOf_isSome]
  cases digitOf c <;> simp

/-! ### Narrowing -/

@[simp] theorem wrap32_toNat (v : Nat) : (wrap32 v).toNat = v % 2 ^ 32 := by
  simp [wrap32]

theorem wrap32_of_toNat (v : U32) : wrap32 v.toNat = v := by
  simp [wrap32]

theorem wrap32_eq_iff {a b : Nat} : wrap32 a = wrap32 b ↔ a % 2 ^ 32 = b % 2 ^ 32 := by
  rw [← wrap32_toNat, ← wrap32_toNat]
  exact ⟨fun h => by rw [h], fun h => BitVec.eq_of_toNat_eq h⟩

@[simp] theorem byteOf_toNat (v : Nat) : (byteOf v).toNat = v % 2 ^ 8 := by
  simp [byteOf]

/-- Two accumulations wrap as one (R91: "wrap32 is a ring homomorphism"). -/
theorem accDigit_wrap32 (v d : Nat) : accDigit (wrap32 v) d = wrap32 (v * 85 + d) := by
  simp only [accDigit, wrap32_eq_iff, wrap32_toNat]
  omega

theorem accByte_wrap32 (v : Nat) (b : Byte) : accByte (wrap32 v) b = wrap32 (v * 256 + b.toNat) := by
  simp only [accByte, wrap32_eq_iff, wrap32_toNat]
  omega

/-! ### One group -/

/-- The digits of a value are its base-85 representation (R77). -/
theorem digitAt_sum (v : U32) :
    (digitAt v 4).val * 85 ^ 4 + (digitAt v 3).val * 85 ^ 3 + (digitAt v 2).val * 85 ^ 2 +
      (digitAt v 1).val * 85 + (digitAt v 0).val = v.toNat := by
  have := v.isLt
  simp only [digitAt]
  omega

/-- A group of alphabet digits has the value of its digits (R89). -/
theorem decVal_fwd (d0 d1 d2 d3 d4 : Fin 85) :
    decVal (fwd d0) (fwd d1) (fwd d2) (fwd d3) (fwd d4) =
      some (d0.val * 85 ^ 4 + d1.val * 85 ^ 3 + d2.val * 85 ^ 2 + d3.val * 85 + d4.val) := by
  simp [decVal, digitOf_fwd]

/-- Decoding what encGroup emits gives the group's bytes. -/
theorem decGroup_encGroup (v : U32) :
    ∃ c0 c1 c2 c3 c4, encGroup v = [c0, c1, c2, c3, c4] ∧ decGroup c0 c1 c2 c3 c4 = some (bytesOf v) := by
  refine ⟨_, _, _, _, _, rfl, ?_⟩
  rw [decGroup, decVal_fwd, digitAt_sum]
  simp [wrap32_of_toNat]

/-- The bytes of a big-endian value are the four bytes it was made of (R36, R38). -/
theorem bytesOf_be32 (b0 b1 b2 b3 : Byte) : bytesOf (be32 b0 b1 b2 b3) = [b0, b1, b2, b3] := by
  have h0 := b0.isLt
  have h1 := b1.isLt
  have h2 := b2.isLt
  have h3 := b3.isLt
  simp only [bytesOf, be32, wrap32_toNat, List.cons.injEq, and_true]
  refine ⟨?_, ?_, ?_, ?_⟩ <;> apply BitVec.eq_of_toNat_eq <;> rw [byteOf_toNat] <;> omega

theorem be32_toNat (b0 b1 b2 b3 : Byte) : (be32 b0 b1 b2 b3).toNat =
    b0.toNat * 2 ^ 24 + b1.toNat * 2 ^ 16 + b2.toNat * 2 ^ 8 + b3.toNat := by
  have h0 := b0.isLt
  have h1 := b1.isLt
  have h2 := b2.isLt
  have h3 := b3.isLt
  rw [be32, wrap32_toNat]
  omega

/-- A group's value is the big-endian value of its four bytes. -/
theorem be32_bytesOf (v : U32) : ∃ b0 b1 b2 b3, bytesOf v = [b0, b1, b2, b3] ∧ be32 b0 b1 b2 b3 = v := by
  refine ⟨_, _, _, _, rfl, ?_⟩
  have := v.isLt
  apply BitVec.eq_of_toNat_eq
  rw [be32_toNat]
  simp only [byteOf_toNat]
  omega

/-! ### Whole sequences -/

theorem encBytes_append {ds : List Byte} (es : List Byte) (h : ds.length % 4 = 0) :
    encBytes (ds ++ es) = encBytes ds ++ encBytes es := by
  induction ds using encBytes.induct with
  | case1 b0 b1 b2 b3 rest ih =>
    have : rest.length % 4 = 0 := by simp only [List.length_cons] at h; omega
    simp [encBytes, ih this]
  | case2 ds hne =>
    match ds, h, hne with
    | [], _, _ => simp [encBytes]
    | [_], h, _ => simp at h
    | [_, _], h, _ => simp at h
    | [_, _, _], h, _ => simp at h
    | a :: b :: c :: d :: r, _, hne => exact absurd rfl (hne a b c d r)

theorem encBytes_length (ds : List Byte) : (encBytes ds).length = 5 * (ds.length / 4) := by
  induction ds using encBytes.induct with
  | case1 b0 b1 b2 b3 rest ih => simp [encBytes, ih, encGroup]; omega
  | case2 ds hne =>
    match ds, hne with
    | [], _ => rfl
    | [_], _ => simp [encBytes]
    | [_, _], _ => simp [encBytes]
    | [_, _, _], _ => simp [encBytes]
    | a :: b :: c :: d :: r, hne => exact absurd rfl (hne a b c d r)

/-- A group of codes in range always decodes, to four bytes (R73, R90). -/
theorem decGroup_of_inRange {c0 c1 c2 c3 c4 : Byte} (h0 : inRange c0 = true) (h1 : inRange c1 = true)
    (h2 : inRange c2 = true) (h3 : inRange c3 = true) (h4 : inRange c4 = true) :
    ∃ v, decVal c0 c1 c2 c3 c4 = some v ∧ decGroup c0 c1 c2 c3 c4 = some (bytesOf (wrap32 v)) := by
  obtain ⟨d0, e0, -⟩ := exists_digit_of_inRange h0
  obtain ⟨d1, e1, -⟩ := exists_digit_of_inRange h1
  obtain ⟨d2, e2, -⟩ := exists_digit_of_inRange h2
  obtain ⟨d3, e3, -⟩ := exists_digit_of_inRange h3
  obtain ⟨d4, e4, -⟩ := exists_digit_of_inRange h4
  refine ⟨d0 * 85 ^ 4 + d1 * 85 ^ 3 + d2 * 85 ^ 2 + d3 * 85 + d4, ?_, ?_⟩ <;>
    simp [decGroup, decVal, e0, e1, e2, e3, e4]

theorem decBytes_append {ds : List Byte} (es : List Byte) (h : ds.length % 5 = 0)
    (hr : ∀ c ∈ ds, inRange c = true) : decBytes (ds ++ es) = decBytes ds ++ decBytes es := by
  induction ds using decBytes.induct with
  | case1 c0 c1 c2 c3 c4 rest bs hg ih =>
    have : rest.length % 5 = 0 := by simp only [List.length_cons] at h; omega
    simp [decBytes, hg, ih this (fun c hc => hr c (by simp [hc]))]
  | case2 c0 c1 c2 c3 c4 rest hg =>
    obtain ⟨v, -, e⟩ := decGroup_of_inRange (hr c0 (by simp)) (hr c1 (by simp)) (hr c2 (by simp))
      (hr c3 (by simp)) (hr c4 (by simp))
    rw [e] at hg
    cases hg
  | case3 ds hne =>
    match ds, h, hne with
    | [], _, _ => simp [decBytes]
    | [_], h, _ => simp at h
    | [_, _], h, _ => simp at h
    | [_, _, _], h, _ => simp at h
    | [_, _, _, _], h, _ => simp at h
    | a :: b :: c :: d :: e :: r, _, hne => exact absurd rfl (hne a b c d e r)

theorem decBytes_length {ds : List Byte} (hr : ∀ c ∈ ds, inRange c = true) :
    (decBytes ds).length = 4 * (ds.length / 5) := by
  induction ds using decBytes.induct with
  | case1 c0 c1 c2 c3 c4 rest bs hg ih =>
    obtain ⟨v, -, e⟩ := decGroup_of_inRange (hr c0 (by simp)) (hr c1 (by simp)) (hr c2 (by simp))
      (hr c3 (by simp)) (hr c4 (by simp))
    rw [e] at hg
    cases hg
    simp [decBytes, e, ih (fun c hc => hr c (by simp [hc])), bytesOf]
    omega
  | case2 c0 c1 c2 c3 c4 rest hg =>
    obtain ⟨v, -, e⟩ := decGroup_of_inRange (hr c0 (by simp)) (hr c1 (by simp)) (hr c2 (by simp))
      (hr c3 (by simp)) (hr c4 (by simp))
    rw [e] at hg
    cases hg
  | case3 ds hne =>
    match ds, hne with
    | [], _ => rfl
    | [_], _ => simp [decBytes]
    | [_, _], _ => simp [decBytes]
    | [_, _, _], _ => simp [decBytes]
    | [_, _, _, _], _ => simp [decBytes]
    | a :: b :: c :: d :: e :: r, hne => exact absurd rfl (hne a b c d e r)

end Sys2Proof.Machine
end

