-- ==== Sys2Proof/Laws/Checks.lean ====
section
/-! SUPPORT. What the checks of an ACCEPT step find (R81, R97, R119): the first bad element, the strict pre-scan, the host's answers, and the unit picked. -/

namespace Sys2Proof.Machine

/-! ### The first bad element (R94, R113) -/

theorem firstBad_none {p : Byte → Bool} {l : List Byte} :
    firstBad p l = none ↔ ∀ c ∈ l, p c = true := by
  induction l with
  | nil => simp [firstBad]
  | cons c cs ih =>
    simp only [firstBad]
    split <;> simp_all

theorem firstBad_some {p : Byte → Bool} {l : List Byte} {i : Nat} :
    firstBad p l = some i ↔
      (∃ c, l[i]? = some c ∧ p c = false) ∧ ∀ y < i, ∀ d, l[y]? = some d → p d = true := by
  induction l generalizing i with
  | nil => simp [firstBad]
  | cons c cs ih =>
    simp only [firstBad]
    by_cases h : p c = true
    · rw [if_pos h]
      cases i with
      | zero => simp [h]
      | succ i =>
        simp only [Option.map_eq_some_iff, Nat.add_right_cancel_iff, exists_eq_right, ih,
          List.getElem?_cons_succ]
        constructor
        · rintro ⟨h1, h2⟩
          refine ⟨h1, fun y hy d hd => ?_⟩
          cases y with
          | zero => simp at hd; rw [← hd]; exact h
          | succ y => exact h2 y (by omega) d (by simpa using hd)
        · rintro ⟨h1, h2⟩
          exact ⟨h1, fun y hy d hd => h2 (y + 1) (by omega) d (by simpa using hd)⟩
    · rw [if_neg h]
      cases i with
      | zero => simp [h]
      | succ i =>
        simp only [Option.some.injEq]
        constructor
        · intro h; omega
        · rintro ⟨-, h2⟩
          exact absurd (h2 0 (by omega) c (by simp)) h

/-! ### The strict pre-scan (R97) -/

/-- The pre-scan finds the first element that is no alphabet character, before it can meet a byte the
host did not supply. -/
theorem scanFrom_eq (len : Nat) (bs : List Byte) (i : Nat) :
    scanFrom i len bs =
      match firstBad isZ85 (bs.take len) with
      | some x => .bad (i + x)
      | none => if len ≤ bs.length then .clean else .absent (i + bs.length) := by
  induction len generalizing bs i with
  | zero => simp [scanFrom, firstBad]
  | succ n ih =>
    cases bs with
    | nil => simp [scanFrom, firstBad]
    | cons c cs =>
      simp only [scanFrom, List.take_succ_cons, firstBad]
      split
      · rw [ih]
        cases firstBad isZ85 (cs.take n) <;> simp [Nat.add_assoc, Nat.add_comm 1]
      · simp

/-! ### The verdict (R119) -/

/-- The last checks ask for a buffer only for a command that is not empty (R81, R97). -/
theorem lastChecks_cases (k : UnitKind) (len : Nat) :
    (len = 0 ∧ lastChecks k len = .answer .ok 0) ∨
      (0 < len ∧ lastChecks k len = .ask (outLen k len)) := by
  unfold lastChecks
  split
  · next h => exact .inl ⟨h, rfl⟩
  · exact .inr ⟨by omega, rfl⟩

/-- The pre-scan of a command found nothing: every element is there and is an alphabet character. -/
theorem scanFrom_clean {len : Nat} {bs : List Byte} (h : scanFrom 0 len bs = .clean) :
    ∀ j < len, ∃ b, bs[j]? = some b ∧ isZ85 b = true := by
  rw [scanFrom_eq] at h
  cases hf : firstBad isZ85 (bs.take len) with
  | some y => simp [hf] at h
  | none =>
    by_cases hle : len ≤ bs.length
    · intro j hj
      refine ⟨bs[j], by rw [List.getElem?_eq_getElem], firstBad_none.mp hf _ ?_⟩
      rw [List.mem_take_iff_getElem]
      exact ⟨j, by omega, rfl⟩
    · simp [hf, hle] at h

/-- Everything the checks of an instruction can come to (R111 to R113, R118, R119). -/
inductive VerdictCase (i : Instr) : Verdict → Prop
  | badLength (h : i.len % groupIn (unitKind i) ≠ 0) :
      VerdictCase i (.answer .errLength (i.len % groupIn (unitKind i)))
  | badChar (x : Nat) (hc : opcode i = 0x06#8) (hs : scanFrom 0 i.len i.input = .bad x) :
      VerdictCase i (.answer .errChar x)
  | absent (x : Nat) (hc : opcode i = 0x06#8) (hs : scanFrom 0 i.len i.input = .absent x) :
      VerdictCase i (.stop (.inAbsent x))
  | empty (h : i.len = 0) : VerdictCase i (.answer .ok 0)
  | ask (hl : i.len % groupIn (unitKind i) = 0) (h : 0 < i.len)
      (hs : opcode i = 0x06#8 → scanFrom 0 i.len i.input = .clean) :
      VerdictCase i (.ask (outLen (unitKind i) i.len))

theorem verdictOf_cases (i : Instr) : VerdictCase i (verdictOf i) := by
  cases hl : lenOk (unitKind i) i.len with
  | false =>
    have h : i.len % groupIn (unitKind i) ≠ 0 := by simpa [lenOk] using hl
    have e : verdictOf i = .answer .errLength (i.len % groupIn (unitKind i)) := by
      cases i <;> exact if_neg (Bool.eq_false_iff.mp hl)
    exact e ▸ .badLength h
  | true =>
    have h : i.len % groupIn (unitKind i) = 0 := by simpa [lenOk] using hl
    have last : (opcode i = 0x06#8 → scanFrom 0 i.len i.input = .clean) →
        VerdictCase i (lastChecks (unitKind i) i.len) := by
      intro hs
      rcases lastChecks_cases (unitKind i) i.len with ⟨h0, e⟩ | ⟨h0, e⟩ <;> rw [e]
      · exact .empty h0
      · exact .ask h h0 hs
    cases i with
    | encode t n b =>
      have e : verdictOf (.encode t n b) = lastChecks .enc n := if_pos hl
      exact e ▸ last (fun hc => absurd hc (by simp [opcode]))
    | decode t n b =>
      have e : verdictOf (.decode t n b) = lastChecks .dec n := if_pos hl
      exact e ▸ last (fun hc => absurd hc (by simp [opcode]))
    | decodeS t n b =>
      have e : verdictOf (.decodeS t n b) =
          match scanFrom 0 n b with
          | .absent i => .stop (.inAbsent i)
          | .bad i => .answer .errChar i
          | .clean => lastChecks .dec n := if_pos hl
      rw [e]
      cases hs : scanFrom 0 n b with
      | absent x => exact .absent x rfl hs
      | bad x => exact .badChar x rfl hs
      | clean => exact last (fun _ => hs)

/-- An instruction whose host supplies all its bytes never stops at its checks (R59). -/
theorem verdictOf_ne_stop {i : Instr} (h : i.WellFormed) (f : Fault) : verdictOf i ≠ .stop f := by
  intro hv
  have := verdictOf_cases i
  rw [hv] at this
  cases this with
  | absent x hc hs =>
    rw [scanFrom_eq] at hs
    have hle : i.len ≤ i.input.length := Nat.le_of_eq h.symm
    cases hf : firstBad isZ85 (i.input.take i.len) <;> simp [hf, hle] at hs

/-! ### The host's answers (R118) -/

theorem takeAnswer_none {t : Nat} {l : List (Nat × Alloc)} (h : ∀ p ∈ l, p.1 ≠ t) :
    takeAnswer t l = none := by
  induction l with
  | nil => rfl
  | cons p l ih =>
    obtain ⟨x, a⟩ := p
    have : x ≠ t := h (x, a) (by simp)
    simp [takeAnswer, this, ih (fun p hp => h p (by simp [hp]))]

theorem takeAnswer_append {t : Nat} {a : Alloc} {l r : List (Nat × Alloc)} (h : ∀ p ∈ l, p.1 ≠ t) :
    takeAnswer t (l ++ (t, a) :: r) = some (a, l ++ r) := by
  induction l with
  | nil => simp [takeAnswer]
  | cons p l ih =>
    obtain ⟨x, b⟩ := p
    have : x ≠ t := h (x, b) (by simp)
    simp [takeAnswer, this, ih (fun p hp => h p (by simp [hp]))]

/-- The host's answer touches no unit. -/
theorem allocate_lane? {s s' : State} {t : Nat} {a : Alloc} (h : allocate t s = (a, s')) (u : UnitId) :
    s'.lane? u = s.lane? u := by
  rw [allocate_cases h]
  obtain ⟨k, i⟩ := u
  cases k <;> rfl

/-! ### The unit picked (R64) -/

/-- The unit picked is an IDLE one, and picking it touches no unit. -/
theorem pickUnit_lane {s s' : State} {k : UnitKind} {u i : Nat} {us : List Nat}
    (h : s.idleUnits k = u :: us) (hp : pickUnit u us s = (i, s')) :
    ∃ l, s.lane? ⟨k, i⟩ = some l ∧ l.regs.st = .idle ∧ s'.lane? ⟨k, i⟩ = some l := by
  obtain ⟨hm, hs⟩ := pickUnit_cases hp
  rw [← h, State.mem_idleUnits] at hm
  obtain ⟨l, h1, h2⟩ := hm
  refine ⟨l, h1, h2, ?_⟩
  rw [hs]
  cases k <;> exact h1

end Sys2Proof.Machine
end

