-- ==== Sys2Proof/Laws/Memory.lean ====
section
/-! SUPPORT. The laws of the address spaces: read after write, every other address untouched, and the canonical form kept by every operation. -/

namespace Sys2Proof.Machine

/-! ### Cells -/

theorem cellAt_cellPut_self (a : Nat) (v : Byte) (cs : List Host.Cell) :
    cellAt a (cellPut a v cs) = some v := by
  induction cs with
  | nil => simp [cellPut, cellAt]
  | cons c cs ih =>
    obtain ⟨x, b⟩ := c
    simp only [cellPut]
    split
    · simp [cellAt]
    · split
      · simp [cellAt]
      · have : x ≠ a := fun e => by simp_all
        simp [cellAt, this, ih]

theorem cellAt_cellPut_ne {a a' : Nat} (h : a' ≠ a) (v : Byte) (cs : List Host.Cell) :
    cellAt a' (cellPut a v cs) = cellAt a' cs := by
  induction cs with
  | nil => simp [cellPut, cellAt, h.symm]
  | cons c cs ih =>
    obtain ⟨x, b⟩ := c
    simp only [cellPut]
    split
    · simp [cellAt, h.symm]
    · split
      · next e => subst e; simp [cellAt, h.symm]
      · simp [cellAt, ih]

theorem mem_cellPut {a : Nat} {v : Byte} {cs : List Host.Cell} {c : Host.Cell}
    (h : c ∈ cellPut a v cs) : c = (a, v) ∨ c ∈ cs := by
  induction cs with
  | nil => simpa [cellPut] using h
  | cons d cs ih =>
    obtain ⟨x, b⟩ := d
    simp only [cellPut] at h
    split at h
    · simpa using h
    · split at h
      · rcases List.mem_cons.mp h with h | h <;> simp [h]
      · rcases List.mem_cons.mp h with h | h
        · simp [h]
        · rcases ih h with h | h <;> simp [h]

theorem pairwise_cellPut (a : Nat) (v : Byte) (cs : List Host.Cell)
    (h : cs.Pairwise (fun x y => x.1 < y.1)) : (cellPut a v cs).Pairwise (fun x y => x.1 < y.1) := by
  induction cs with
  | nil => simp [cellPut]
  | cons d cs ih =>
    obtain ⟨x, b⟩ := d
    obtain ⟨hd, hc⟩ := List.pairwise_cons.mp h
    simp only [cellPut]
    split
    · next hlt =>
      refine List.pairwise_cons.mpr ⟨fun c hm => ?_, h⟩
      rcases List.mem_cons.mp hm with e | hm
      · simpa [e] using hlt
      · exact Nat.lt_trans hlt (hd c hm)
    · split
      · next e => subst e; exact List.pairwise_cons.mpr ⟨hd, hc⟩
      · next h1 h2 =>
        refine List.pairwise_cons.mpr ⟨fun c hm => ?_, ih hc⟩
        rcases mem_cellPut hm with e | hm
        · have : x < a := by omega
          simpa [e] using this
        · exact hd c hm

@[simp] theorem cellAt_nil (a : Nat) : cellAt a [] = none := rfl

theorem cellAt_cellsFrom (a : Nat) (bs : List Byte) (i : Nat) :
    cellAt i (cellsFrom a bs) = if a ≤ i then bs[i - a]? else none := by
  induction bs generalizing a with
  | nil => simp [cellsFrom]
  | cons b bs ih =>
    simp only [cellsFrom, cellAt, ih]
    by_cases h : a = i
    · subst h; simp
    · by_cases h' : a ≤ i
      · have e : i - a = (i - (a + 1)) + 1 := by omega
        have : a + 1 ≤ i := by omega
        simp [h, h', this, e]
      · have : ¬ a + 1 ≤ i := by omega
        simp [h, h', this]

theorem cellsFrom_addr {a : Nat} {bs : List Byte} {c : Host.Cell} (h : c ∈ cellsFrom a bs) :
    a ≤ c.1 ∧ c.1 < a + bs.length := by
  induction bs generalizing a with
  | nil => simp [cellsFrom] at h
  | cons b bs ih =>
    rcases List.mem_cons.mp h with e | h
    · subst e; simp
    · have := ih h
      simp only [List.length_cons]
      omega

theorem pairwise_cellsFrom (a : Nat) (bs : List Byte) :
    (cellsFrom a bs).Pairwise (fun x y => x.1 < y.1) := by
  induction bs generalizing a with
  | nil => simp [cellsFrom]
  | cons b bs ih =>
    refine List.pairwise_cons.mpr ⟨fun c h => ?_, ih _⟩
    have := cellsFrom_addr h
    simpa using this.1

theorem cellsFrom_append (a : Nat) (bs cs : List Byte) :
    cellsFrom a (bs ++ cs) = cellsFrom a bs ++ cellsFrom (a + bs.length) cs := by
  induction bs generalizing a with
  | nil => simp [cellsFrom]
  | cons b bs ih => simp [cellsFrom, ih, Nat.add_assoc, Nat.add_comm 1]

theorem cellPut_append_end (a : Nat) (v : Byte) (cs : List Host.Cell) (h : ∀ c ∈ cs, c.1 < a) :
    cellPut a v cs = cs ++ [(a, v)] := by
  induction cs with
  | nil => rfl
  | cons d cs ih =>
    obtain ⟨x, b⟩ := d
    have hx : x < a := h (x, b) (by simp)
    simp only [cellPut, List.cons_append]
    rw [if_neg (by omega), if_neg (by omega), ih (fun c hc => h c (by simp [hc]))]

/-! ### Spaces -/

theorem Memory.wf_iff {m : Memory} :
    m.wf = true ↔ m.cells.Pairwise (fun x y => x.1 < y.1) ∧ ∀ c ∈ m.cells, c.1 < m.size := by
  simp [Memory.wf]

@[simp] theorem Memory.wf_absent : Memory.absent.wf = true := rfl

@[simp] theorem Memory.wf_fresh (n : Nat) : (Memory.fresh n).wf = true := rfl

@[simp] theorem Memory.wf_ofBytes (n : Nat) (bs : List Byte) : (Memory.ofBytes n bs).wf = true := by
  refine Memory.wf_iff.mpr ⟨pairwise_cellsFrom _ _, fun c hc => ?_⟩
  have := (cellsFrom_addr hc).2
  simp only [Memory.ofBytes, List.length_take] at *
  omega

@[simp] theorem Memory.size_ofBytes (n : Nat) (bs : List Byte) : (Memory.ofBytes n bs).size = n := rfl

@[simp] theorem Memory.size_fresh (n : Nat) : (Memory.fresh n).size = n := rfl

@[simp] theorem Memory.size_absent : Memory.absent.size = 0 := rfl

/-- A granted buffer has no byte before the unit writes one (U3). -/
@[simp] theorem Memory.read_fresh (n a : Nat) : (Memory.fresh n).read a = none := by
  unfold Memory.read
  split <;> rfl

@[simp] theorem Memory.read_absent (a : Nat) : Memory.absent.read a = none := Memory.read_fresh 0 a

/-- A granted buffer with nothing written is the space of no bytes. -/
theorem Memory.fresh_eq_ofBytes (n : Nat) : Memory.fresh n = Memory.ofBytes n [] := by
  simp [Memory.fresh, Memory.ofBytes, cellsFrom]

/-- IN read at an index gives the host's byte there (R34). -/
theorem Memory.read_ofBytes (n : Nat) (bs : List Byte) (i : Nat) :
    (Memory.ofBytes n bs).read i = if i < n then bs[i]? else none := by
  simp only [Memory.read, Memory.ofBytes, cellAt_cellsFrom]
  split
  · next h => simp [h]
  · rfl

/-- What a write can do: it fails only outside the space, and else it changes one address. -/
theorem Memory.write_cases {m m' : Memory} {a : Nat} {v : Byte} (h : m.write a v = .ok m') :
    a < m.size ∧ m'.size = m.size ∧ m'.read a = some v ∧ ∀ a' ≠ a, m'.read a' = m.read a' := by
  unfold Memory.write at h
  split at h
  · next hlt =>
    cases h
    refine ⟨hlt, rfl, ?_, fun a' h' => ?_⟩
    · simp [Memory.read, hlt, cellAt_cellPut_self]
    · simp [Memory.read, cellAt_cellPut_ne h']
  · cases h

theorem Memory.write_wf {m m' : Memory} {a : Nat} {v : Byte} (h : m.write a v = .ok m')
    (hw : m.wf = true) : m'.wf = true := by
  obtain ⟨hp, hl⟩ := Memory.wf_iff.mp hw
  unfold Memory.write at h
  split at h
  · next hlt =>
    cases h
    refine Memory.wf_iff.mpr ⟨pairwise_cellPut _ _ _ hp, fun c hc => ?_⟩
    rcases mem_cellPut hc with e | hc
    · simpa [e] using hlt
    · exact hl c hc
  · cases h

theorem Memory.writeAll_wf {m m' : Memory} {a : Nat} {bs : List Byte} (h : m.writeAll a bs = .ok m')
    (hw : m.wf = true) : m'.wf = true := by
  induction bs generalizing m a with
  | nil => cases h; exact hw
  | cons b bs ih =>
    simp only [Memory.writeAll] at h
    split at h
    · next m1 h1 => exact ih h (Memory.write_wf h1 hw)
    · cases h

/-- What writing a run of bytes can do: it succeeds only inside the space, stores the bytes in
order, and changes no other address. -/
theorem Memory.writeAll_cases {m m' : Memory} {a : Nat} {bs : List Byte}
    (h : m.writeAll a bs = .ok m') :
    (bs ≠ [] → a + bs.length ≤ m.size) ∧ m'.size = m.size ∧
      (∀ j < bs.length, m'.read (a + j) = bs[j]?) ∧
      ∀ x, x < a ∨ a + bs.length ≤ x → m'.read x = m.read x := by
  induction bs generalizing m a with
  | nil => cases h; simp
  | cons b bs ih =>
    simp only [Memory.writeAll] at h
    split at h
    · next m1 h1 =>
      obtain ⟨hlt, hs, hr, ho⟩ := Memory.write_cases h1
      obtain ⟨i1, i2, i3, i4⟩ := ih h
      refine ⟨fun _ => ?_, i2.trans hs, fun j hj => ?_, fun x hx => ?_⟩
      · by_cases hb : bs = []
        · subst hb; simpa using hlt
        · have := i1 hb
          rw [hs] at this
          simp only [List.length_cons]
          omega
      · cases j with
        | zero =>
          have := i4 a (Or.inl (by omega))
          simpa [hr] using this
        | succ j =>
          have := i3 j (by simpa using hj)
          simpa [Nat.add_assoc, Nat.add_comm 1 j] using this
      · simp only [List.length_cons] at hx
        rw [i4 x (by omega), ho x (by omega)]
    · cases h

/-- Writing the bytes that come next to a space filled from address 0 (R35: "in ascending index
order"). -/
theorem Memory.writeAll_ofBytes (n : Nat) (ds bs : List Byte) (h : ds.length + bs.length ≤ n) :
    (Memory.ofBytes n ds).writeAll ds.length bs = .ok (Memory.ofBytes n (ds ++ bs)) := by
  induction bs generalizing ds with
  | nil => simp [Memory.writeAll]
  | cons b bs ih =>
    simp only [List.length_cons] at h
    have hput : (Memory.ofBytes n ds).write ds.length b = .ok (Memory.ofBytes n (ds ++ [b])) := by
      have e1 : ds.take n = ds := List.take_of_length_le (by omega)
      have e2 : (ds ++ [b]).take n = ds ++ [b] := List.take_of_length_le (by simp; omega)
      simp only [Memory.write, Memory.ofBytes, e1, e2]
      rw [if_pos (by omega), cellPut_append_end _ _ _ (fun c hc => by
        have := (cellsFrom_addr hc).2
        omega), cellsFrom_append]
      simp [cellsFrom]
    have := ih (ds ++ [b]) (by simp; omega)
    simp only [Memory.writeAll, hput]
    simpa using this

/-- Writing fails only where the run of bytes leaves the space. -/
theorem Memory.writeAll_ok {m : Memory} {a : Nat} {bs : List Byte} (h : a + bs.length ≤ m.size) :
    ∃ m', m.writeAll a bs = .ok m' := by
  induction bs generalizing m a with
  | nil => exact ⟨m, rfl⟩
  | cons b bs ih =>
    simp only [List.length_cons] at h
    have hw : m.write a b = .ok { m with cells := cellPut a b m.cells } := by
      simp only [Memory.write]
      rw [if_pos (by omega)]
    simp only [Memory.writeAll, hw]
    exact ih (by simp only []; omega)

end Sys2Proof.Machine
end

