-- ==== Sys2Proof/Laws/Step.lean ====
section
/-! SUPPORT. What a step can do, said once: the moves of each agent, the steps of a unit, and the step of a state that names whose turn it is. -/

namespace Sys2Proof.Machine

/-! ### A unit's step -/

/-- What the enabled step of a unit says of its `ph` and `ip` (R18, R85, R101). -/
theorem phase_cases (k : UnitKind) (r : UnitRegs) :
    (phase k r = .acc ↔ r.st = .run ∧ r.ph.toNat < groupIn k ∧ r.ip < r.n) ∧
    (phase k r = .emit ↔ r.st = .run ∧ r.ph.toNat = groupIn k) ∧
    (phase k r = .done ↔ r.st = .run ∧ r.ph.toNat = 0 ∧ r.ip = r.n) := by
  have hg : 0 < groupIn k := by cases k <;> decide
  unfold phase
  by_cases h : r.st = .run
  · simp only [h, not_true_eq_false, ne_eq, if_false, true_and]
    split
    · next h1 => simp [h1]; omega
    · split
      · next h1 h2 => simp [h2]; omega
      · split
        · next h1 h2 h3 => simp [h3]; omega
        · next h1 h2 h3 => simp; omega
  · simp [h]

/-- The steps of a unit by its phase, in one form for both kinds. -/
theorem unitStep_eq (k : UnitKind) (l : Lane) :
    unitStep k l =
      match phase k l.regs, k with
      | .acc, .enc => encAcc l
      | .acc, .dec => decAcc l
      | .emit, .enc => encEmit l
      | .emit, .dec => decEmit l
      | .done, _ => l.finish
      | .stuck, _ => .idle := by
  cases k <;> simp only [unitStep, encStep, decStep] <;> split <;> simp_all

theorem encGroup_length (v : U32) : (encGroup v).length = 5 := rfl

theorem bytesOf_length (v : U32) : (bytesOf v).length = 4 := rfl

/-- What an ACC step can be (R82, R98). -/
inductive AccStep (k : UnitKind) (l : Lane) : UnitStep → Prop
  | absent (h : l.inp.read l.regs.ip = none) : AccStep k l (.stop (.inAbsent l.regs.ip))
  | byte (b : Byte) (hk : k = .enc) (h : l.inp.read l.regs.ip = some b) :
      AccStep k l (.moved (l.accumulated (accByte l.regs.acc b)))
  | char (c : Byte) (d : Nat) (hk : k = .dec) (h : l.inp.read l.regs.ip = some c)
      (hd : digitOf c = some d) : AccStep k l (.moved (l.accumulated (accDigit l.regs.acc d)))
  | undefinedLookup (c : Byte) (hk : k = .dec) (h : l.inp.read l.regs.ip = some c)
      (hd : digitOf c = none) : AccStep k l (.moved (l.raiseFault c))

theorem unitStep_acc {k : UnitKind} {l : Lane} (h : phase k l.regs = .acc) :
    AccStep k l (unitStep k l) := by
  rw [unitStep_eq, h]
  cases k
  · simp only [encAcc]
    split
    · next h => exact .absent h
    · next b h => exact .byte b rfl h
  · simp only [decAcc]
    split
    · next h => exact .absent h
    · next c h =>
      split
      · next e => exact .undefinedLookup c rfl h (by simp [digitOf, e])
      · next e he => exact .char c (digitField e) rfl h (by simp [digitOf, he])

/-- The bytes an EMIT step writes (R83, R99). -/
def emitBytes (k : UnitKind) (acc : U32) : List Byte :=
  match k with
  | .enc => encGroup acc
  | .dec => bytesOf acc

@[simp] theorem emitBytes_length (k : UnitKind) (v : U32) : (emitBytes k v).length = groupOut k := by
  cases k <;> rfl

theorem unitStep_emit {k : UnitKind} {l : Lane} (h : phase k l.regs = .emit) :
    unitStep k l = l.emit (emitBytes k l.regs.acc) := by
  rw [unitStep_eq, h]
  cases k <;> rfl

theorem unitStep_done {k : UnitKind} {l : Lane} (h : phase k l.regs = .done) :
    unitStep k l = l.finish := by
  rw [unitStep_eq, h]

theorem unitStep_stuck {k : UnitKind} {l : Lane} (h : phase k l.regs = .stuck) :
    unitStep k l = .idle := by
  rw [unitStep_eq, h]

/-- What an EMIT step can be: the bytes written at `opos`, or a write outside the buffer. -/
theorem emit_cases (l : Lane) (bs : List Byte) :
    (∃ m, l.out.writeAll l.regs.opos bs = .ok m ∧
      l.emit bs = .moved
        { l with out := m,
                 regs := { l.regs with opos := l.regs.opos + bs.length, acc := 0#32, ph := 0#3 } }) ∨
    (∃ f, l.out.writeAll l.regs.opos bs = .error f ∧ l.emit bs = .stop f) := by
  unfold Lane.emit
  split
  · next m e => exact .inl ⟨m, e, rfl⟩
  · next f e => exact .inr ⟨f, e, rfl⟩

/-! ### The moves -/

/-- What the turn of a unit comes to. -/
inductive UnitEffect (u : UnitId) (s : State) : State → Prop
  | nothing : UnitEffect u s s
  | moved (l l' : Lane) (hl : s.lane? u = some l) (hs : unitStep u.kind l = .moved l') :
      UnitEffect u s (s.setLane u l')
  | done (l l' : Lane) (d : Delivery) (hl : s.lane? u = some l) (hs : unitStep u.kind l = .done l' d) :
      UnitEffect u s ((s.setLane u l').respond d.resp d.out)

theorem unitMove_cases {u : UnitId} {s t : State} (h : unitMove u s = .next t) : UnitEffect u s t := by
  unfold unitMove at h
  split at h
  · cases h; exact .nothing
  · next l hl =>
    split at h
    · cases h; exact .nothing
    · next l' hs => cases h; exact .moved l l' hl hs
    · next l' d hs => cases h; exact .done l l' d hl hs
    · cases h

/-- What an agent's turn comes to. -/
inductive AgentEffect (s : State) : Agent → State → Prop
  | nothing (a : Agent) : AgentEffect s a s
  | issued (c : Command) (rest : List HostAct) (i : Instr) (t : State)
      (hs : s.script = .issue c :: rest) (hd : decode c = .ok i)
      (he : exec i { s with script := rest } = .next t) : AgentEffect s .host t
  | posted (c : Command) (rest : List HostAct) (i : Instr) (hs : s.script = .post c :: rest)
      (hd : decode c = .ok i) : AgentEffect s .host (hold c { s with script := rest })
  | illegal (a : HostAct) (c : Command) (rest : List HostAct) (e : IllegalWord)
      (ha : a = .issue c ∨ a = .post c) (hs : s.script = a :: rest) (hd : decode c = .error e) :
      AgentEffect s .host (answerIllegal c { s with script := rest })
  | reset (rest : List HostAct) (hs : s.script = .reset :: rest) :
      AgentEffect s .host (resetBlock { s with script := rest })
  | polled (u : UnitId) (rest : List HostAct) (p : List (UnitId × UnitSt))
      (hs : s.script = .readStatus u :: rest)
      (hp : p = s.polled ∨ ∃ st, s.status u = some st ∧ p = s.polled ++ [(u, st)]) :
      AgentEffect s .host { s with script := rest, polled := p }
  | waited (tid : Nat) (rest : List HostAct) (hs : s.script = .wait tid :: rest)
      (hw : waitOver tid s = true) : AgentEffect s .host { s with script := rest }
  | handed (k : Nat) (c : Command) (i : Instr) (t : State) (hk : s.held[k]? = some c)
      (hd : decode c = .ok i) (hi : s.idleUnits (unitKind i) ≠ [])
      (he : exec i { s with held := s.held.eraseIdx k } = .next t) : AgentEffect s (.dispatcher k) t
  | heldIllegal (k : Nat) (c : Command) (e : IllegalWord) (hk : s.held[k]? = some c)
      (hd : decode c = .error e) :
      AgentEffect s (.dispatcher k) (answerIllegal c { s with held := s.held.eraseIdx k })
  | unit (u : UnitId) (t : State) (hu : UnitEffect u s t) : AgentEffect s (.unit u) t

/-- The outcome of a move. -/
def Move.outcome : Move → Outcome
  | .run i s => exec i s
  | .fin o => o

theorem agentMove_cases {a : Agent} {s t : State} (h : (agentMove a s).outcome = .next t) :
    AgentEffect s a t := by
  cases a with
  | host =>
    simp only [agentMove, hostMove] at h
    split at h
    · cases h; exact .nothing _
    · next c rest hs =>
      split at h
      · next i hd => exact .issued c rest i t hs hd h
      · next e hd => cases h; exact .illegal _ c rest e (.inl rfl) hs hd
    · next c rest hs =>
      split at h
      · next i hd => cases h; exact .posted c rest i hs hd
      · next e hd => cases h; exact .illegal _ c rest e (.inr rfl) hs hd
    · next rest hs => cases h; exact .reset rest hs
    · next u rest hs =>
      split at h
      · next st hst => cases h; exact .polled u rest _ hs (.inr ⟨st, hst, rfl⟩)
      · cases h; exact .polled u rest _ hs (.inl rfl)
    · next tid rest hs =>
      split at h
      · next hw => cases h; exact .waited tid rest hs hw
      · cases h; exact .nothing _
  | dispatcher k =>
    simp only [agentMove, dispatcherMove] at h
    split at h
    · cases h; exact .nothing _
    · next c hk =>
      split at h
      · next e hd => cases h; exact .heldIllegal k c e hk hd
      · next i hd =>
        split at h
        · cases h; exact .nothing _
        · next hi => exact .handed k c i t hk hd hi h
  | unit u => exact .unit u t (unitMove_cases h)

/-! ### The step -/

theorem step_eq (s : State) :
    step s =
      match (chooseAgent s).1 with
      | none => .next (chooseAgent s).2
      | some a => (agentMove a (chooseAgent s).2).outcome := by
  unfold step
  obtain ⟨a, s'⟩ := chooseAgent s
  cases a with
  | none => rfl
  | some a =>
    simp only []
    cases agentMove a s' <;> rfl

/-- Choosing who moves changes nothing but the turns and the draws. -/
theorem chooseAgent_state (s : State) :
    (chooseAgent s).2 = { s with turns := (chooseAgent s).2.turns, draws := (chooseAgent s).2.draws } := by
  unfold chooseAgent
  split
  · rfl
  · split <;> rfl

/-- A step is the turn of some agent, or leaves all but the draws as it was. -/
theorem step_cases {s t : State} (h : step s = .next t) :
    ((chooseAgent s).1 = none ∧ t = (chooseAgent s).2) ∨
    ∃ a, (chooseAgent s).1 = some a ∧ AgentEffect (chooseAgent s).2 a t := by
  rw [step_eq] at h
  cases ha : (chooseAgent s).1 with
  | none =>
    rw [ha] at h
    cases h
    exact .inl ⟨rfl, rfl⟩
  | some a =>
    rw [ha] at h
    exact .inr ⟨a, rfl, agentMove_cases h⟩

/-- The agent a state names has the turn. -/
@[simp] theorem chooseAgent_turns {s : State} {a : Agent} {rest : List Agent} (h : s.turns = a :: rest) :
    chooseAgent s = (some a, { s with turns := rest }) := by
  simp [chooseAgent, h]

theorem step_turn {s : State} {a : Agent} {rest : List Agent} (h : s.turns = a :: rest) :
    step s = (agentMove a { s with turns := rest }).outcome := by
  rw [step_eq, chooseAgent_turns h]

/-- The turn of a named unit. -/
theorem step_unit {s : State} {u : UnitId} {rest : List Agent} (h : s.turns = .unit u :: rest) :
    step s = unitMove u { s with turns := rest } := by
  rw [step_turn h]
  rfl

/-- The turn of a named unit whose step changes the unit alone. -/
theorem step_unit_moved {s : State} {u : UnitId} {rest : List Agent} {l l' : Lane}
    (h : s.turns = .unit u :: rest) (hl : s.lane? u = some l) (hs : unitStep u.kind l = .moved l') :
    step s = .next (({ s with turns := rest } : State).setLane u l') := by
  have hl' : ({ s with turns := rest } : State).lane? u = some l := by
    obtain ⟨k, i⟩ := u
    cases k <;> exact hl
  rw [step_unit h]
  simp [unitMove, hl', hs]

/-- The turn of a named unit at its DONE step. -/
theorem step_unit_done {s : State} {u : UnitId} {rest : List Agent} {l l' : Lane} {d : Delivery}
    (h : s.turns = .unit u :: rest) (hl : s.lane? u = some l) (hs : unitStep u.kind l = .done l' d) :
    step s = .next ((({ s with turns := rest } : State).setLane u l').respond d.resp d.out) := by
  have hl' : ({ s with turns := rest } : State).lane? u = some l := by
    obtain ⟨k, i⟩ := u
    cases k <;> exact hl
  rw [step_unit h]
  simp [unitMove, hl', hs]

end Sys2Proof.Machine
end

