-- ==== Sys2Proof/Laws/Effects.lean ====
section
/-! SUPPORT. What one step does to one unit and to the response history, derived once from the cases of a step. -/

namespace Sys2Proof.Machine

/-! ### An instruction -/

/-- An instruction leaves a unit as it is, or starts its command on it, the unit being IDLE and of the
instruction's kind (R64, R81, R97). -/
theorem exec_lane {i : Instr} {s t : State} (h : exec i s = .next t) {v : UnitId} {l : Lane}
    (hl : s.lane? v = some l) :
    t.lane? v = some l ∨
    (l.regs.st = .idle ∧ v.kind = unitKind i ∧
      ∃ n, verdictOf i = .ask n ∧ t.lane? v = some (l.start (encode i) n)) := by
  rcases exec_cases h with ⟨-, rfl⟩ | ⟨j, s1, hj, hs1, ha⟩
  · exact .inl (by simpa using hl)
  · have hl1 : s1.lane? v = some l := by
      rw [hs1]
      obtain ⟨k, i⟩ := v
      cases k <;> exact hl
    rcases accept_cases ha with ⟨st, x, -, rfl⟩ | ⟨n, s2, -, h2, rfl⟩ | ⟨n, s2, hv, h2, rfl⟩
    · exact .inl (by simpa using hl1)
    all_goals
      have hl2 : s2.lane? v = some l := by
        rw [allocate_cases h2]
        obtain ⟨k, i⟩ := v
        cases k <;> exact hl1
    · exact .inl (by simpa using hl2)
    · by_cases e : v = ⟨unitKind i, j⟩
      · subst e
        obtain ⟨l', h', hi⟩ := State.mem_idleUnits.mp hj
        rw [hl] at h'
        cases h'
        refine .inr ⟨hi, rfl, n, hv, ?_⟩
        rw [startUnit_lane hl2, State.lane?_setLane_self hl2]
      · refine .inl ?_
        unfold startUnit
        split
        · rw [State.lane?_setLane_ne e, hl2]
        · exact hl2

/-- Every unit there is after an instruction was there before. -/
theorem exec_lane_rev {i : Instr} {s t : State} (h : exec i s = .next t) {v : UnitId} {l' : Lane}
    (hl : t.lane? v = some l') : ∃ l, s.lane? v = some l := by
  cases e : s.lane? v with
  | some l => exact ⟨l, rfl⟩
  | none =>
    exfalso
    rcases exec_cases h with ⟨-, rfl⟩ | ⟨j, s1, -, hs1, ha⟩
    · simp [e] at hl
    · have e1 : s1.lane? v = none := by
        rw [hs1]
        obtain ⟨k, i⟩ := v
        cases k <;> exact e
      rcases accept_cases ha with ⟨st, x, -, rfl⟩ | ⟨n, s2, -, h2, rfl⟩ | ⟨n, s2, -, h2, rfl⟩
      · simp [e1] at hl
      all_goals
        have e2 : s2.lane? v = none := by
          rw [allocate_cases h2]
          obtain ⟨k, i⟩ := v
          cases k <;> exact e1
      · simp [e2] at hl
      · unfold startUnit at hl
        split at hl
        · next l0 h0 =>
          by_cases hv : v = ⟨unitKind i, j⟩
          · subst hv; rw [h0] at e2; cases e2
          · rw [State.lane?_setLane_ne hv, e2] at hl; cases hl
        · rw [e2] at hl; cases hl

/-- An instruction adds no response, or one of its own tid with OUT_LEN 0 that its checks or the
host's denial gave (R117). -/
theorem exec_responses {i : Instr} {s t : State} (h : exec i s = .next t) :
    t.responses = s.responses ∨
    ∃ st x, t.responses = s.responses ++
        [{ resp := { tid := i.tid, status := st, outLen := 0, info := x }, out := .absent }] ∧
      (verdictOf i = .answer st x ∨ (st = .errAlloc ∧ verdictOf i = .ask x)) := by
  rcases exec_cases h with ⟨-, rfl⟩ | ⟨j, s1, -, hs1, ha⟩
  · exact .inl rfl
  · have e1 : s1.responses = s.responses := by rw [hs1]
    rcases accept_cases ha with ⟨st, x, hv, rfl⟩ | ⟨n, s2, hv, h2, rfl⟩ | ⟨n, s2, -, h2, rfl⟩
    · exact .inr ⟨st, x, by simp [e1, encode], .inl hv⟩
    · have e2 : s2.responses = s.responses := by rw [allocate_cases h2, e1]
      exact .inr ⟨.errAlloc, n, by simp [e2, encode], .inr ⟨rfl, hv⟩⟩
    · have e2 : s2.responses = s.responses := by rw [allocate_cases h2, e1]
      refine .inl ?_
      unfold startUnit
      split <;> simp [e2]

/-! ### A step, seen from one unit -/

/-- What a step does to a unit `v` that was `l`: nothing; a reset; the start of a command on an IDLE
unit, one the host issues or the dispatcher holds; or the unit's own step. -/
inductive LaneEffect (s : State) (v : UnitId) (l : Lane) (t : State) : Prop
  | same (h : t.lane? v = some l)
  | reset (ha : (chooseAgent s).1 = some .host) (hs : s.script.head? = some .reset)
      (h : t.lane? v = some Lane.reset)
  | started (c : Command) (i : Instr) (n : Nat) (hc : .issue c ∈ s.script ∨ c ∈ s.held)
      (hd : decode c = .ok i) (hi : l.regs.st = .idle) (hk : v.kind = unitKind i)
      (hv : verdictOf i = .ask n) (ha : ∀ u, (chooseAgent s).1 ≠ some (.unit u))
      (h : t.lane? v = some (l.start (encode i) n))
  | moved (l' : Lane) (ha : (chooseAgent s).1 = some (.unit v)) (hs : unitStep v.kind l = .moved l')
      (h : t.lane? v = some l') (hr : t.responses = s.responses)
  | done (l' : Lane) (d : Delivery) (ha : (chooseAgent s).1 = some (.unit v))
      (hs : unitStep v.kind l = .done l' d) (h : t.lane? v = some l')
      (hr : t.responses = s.responses ++ [d])

/-- A lane survives any change of the fields that are not the units. -/
theorem State.lane?_congr {s s' : State} (he : s'.enc = s.enc) (hd : s'.dec = s.dec) (v : UnitId) :
    s'.lane? v = s.lane? v := by
  obtain ⟨k, i⟩ := v
  cases k
  · simp [State.lane?, he]
  · simp [State.lane?, hd]

theorem step_lane {s t : State} (h : step s = .next t) {v : UnitId} {l : Lane}
    (hl : s.lane? v = some l) : LaneEffect s v l t := by
  have hc := chooseAgent_state s
  rcases step_cases h with ⟨-, rfl⟩ | ⟨a, ha, he⟩
  · exact .same (by rw [hc]; rw [State.lane?_congr rfl rfl]; exact hl)
  · generalize (chooseAgent s).2 = s0 at hc he
    have hl0 : s0.lane? v = some l := by rw [hc, State.lane?_congr rfl rfl]; exact hl
    cases he with
    | nothing => exact .same hl0
    | issued c rest i _ hs hd he =>
      have hm : .issue c ∈ s.script := by
        rw [hc] at hs
        exact List.mem_of_mem_head? (by rw [show s.script = _ from hs]; rfl)
      rcases exec_lane he (v := v) (l := l) (by rw [State.lane?_congr rfl rfl]; exact hl0) with h | ⟨h1, h2, n, h3, h4⟩
      · exact .same h
      · exact .started c i n (.inl hm) hd h1 h2 h3 (by simp [ha]) h4
    | posted c rest i hs hd => exact .same (by rw [hold_lane?, State.lane?_congr rfl rfl]; exact hl0)
    | illegal a c rest e ha hs hd => exact .same (by simp [answerIllegal]; rw [State.lane?_congr rfl rfl]; exact hl0)
    | reset rest hs =>
      refine .reset ha (by rw [hc] at hs; exact congrArg List.head? hs) ?_
      have : (resetBlock { s0 with script := rest }).lane? v = (s0.lane? v).map (fun _ => Lane.reset) := by
        obtain ⟨k, i⟩ := v
        cases k <;> simp only [State.lane?, resetBlock_lanes, List.getElem?_map] <;> rfl
      rw [this, hl0]
      rfl
    | polled u rest p hs hp => exact .same (by rw [State.lane?_congr rfl rfl]; exact hl0)
    | waited tid rest hs hw => exact .same (by rw [State.lane?_congr rfl rfl]; exact hl0)
    | handed k c i _ hk hd hi he =>
      have hm : c ∈ s.held := by
        rw [hc] at hk
        exact List.mem_of_getElem? hk
      rcases exec_lane he (v := v) (l := l) (by rw [State.lane?_congr rfl rfl]; exact hl0) with h | ⟨h1, h2, n, h3, h4⟩
      · exact .same h
      · exact .started c i n (.inr hm) hd h1 h2 h3 (by simp [ha]) h4
    | heldIllegal k c e hk hd =>
      exact .same (by simp [answerIllegal]; rw [State.lane?_congr rfl rfl]; exact hl0)
    | unit u _ hu =>
      have hr0 : s0.responses = s.responses := by rw [hc]
      cases hu with
      | nothing => exact .same hl0
      | moved l1 l' h1 hs =>
        by_cases e : v = u
        · subst e
          rw [hl0] at h1
          cases h1
          exact .moved l' ha hs (State.lane?_setLane_self hl0) (by simp [hr0])
        · exact .same (by rw [State.lane?_setLane_ne e, hl0])
      | done l1 l' d h1 hs =>
        by_cases e : v = u
        · subst e
          rw [hl0] at h1
          cases h1
          exact .done l' d ha hs (by simpa using State.lane?_setLane_self hl0) (by simp [hr0])
        · exact .same (by rw [State.respond_lane?, State.lane?_setLane_ne e, hl0])

/-- The response a unit's step gives is its DONE step's OK (R84, R100). -/
theorem unitStep_done_cases {k : UnitKind} {l l' : Lane} {d : Delivery} (h : unitStep k l = .done l' d) :
    phase k l.regs = .done ∧
      l' = { regs := { l.regs with st := .idle }, inp := .absent, out := .absent } ∧
      d = { resp := { tid := l.regs.tid, status := .ok, outLen := l.regs.opos, info := 0 },
            out := l.out } := by
  cases hp : phase k l.regs with
  | acc =>
    have := unitStep_acc hp
    rw [h] at this
    cases this
  | emit =>
    rw [unitStep_emit hp] at h
    rcases emit_cases l (emitBytes k l.regs.acc) with ⟨m, -, e⟩ | ⟨f, -, e⟩ <;> rw [e] at h <;> cases h
  | done =>
    rw [unitStep_done hp] at h
    cases h
    exact ⟨rfl, rfl, rfl⟩
  | stuck => rw [unitStep_stuck hp] at h; cases h

/-- A unit's step that moves it is an ACC step that adds an element, an EMIT step, or the fault
(R82, R83, R98, R99, R116). -/
theorem unitStep_moved_cases {k : UnitKind} {l l' : Lane} (h : unitStep k l = .moved l') :
    (phase k l.regs = .acc ∧ ∃ b a, l.inp.read l.regs.ip = some b ∧ l' = l.accumulated a ∧
      ((k = .enc ∧ a = accByte l.regs.acc b) ∨
        (k = .dec ∧ ∃ d, digitOf b = some d ∧ a = accDigit l.regs.acc d))) ∨
    (phase k l.regs = .emit ∧ ∃ m, l.out.writeAll l.regs.opos (emitBytes k l.regs.acc) = .ok m ∧
      l' = { l with out := m,
                    regs := { l.regs with opos := l.regs.opos + groupOut k, acc := 0#32, ph := 0#3 } }) ∨
    (phase k l.regs = .acc ∧ k = .dec ∧ ∃ c, l.inp.read l.regs.ip = some c ∧ digitOf c = none ∧
      l' = l.raiseFault c) := by
  cases hp : phase k l.regs with
  | acc =>
    have := unitStep_acc hp
    rw [h] at this
    cases this with
    | byte b hk hb => exact .inl ⟨rfl, b, _, hb, rfl, .inl ⟨hk, rfl⟩⟩
    | char c d hk hb hd => exact .inl ⟨rfl, c, _, hb, rfl, .inr ⟨hk, d, hd, rfl⟩⟩
    | undefinedLookup c hk hb hd => exact .inr (.inr ⟨rfl, hk, c, hb, hd, rfl⟩)
  | emit =>
    rw [unitStep_emit hp] at h
    rcases emit_cases l (emitBytes k l.regs.acc) with ⟨m, hm, e⟩ | ⟨f, -, e⟩ <;> rw [e] at h <;> cases h
    exact .inr (.inl ⟨rfl, m, hm, by simp⟩)
  | done => rw [unitStep_done hp] at h; cases h
  | stuck => rw [unitStep_stuck hp] at h; cases h

/-! ### A step, seen from the whole block -/

/-- No step makes a unit: every unit there is after a step was there before. -/
theorem step_lane_rev {s t : State} (h : step s = .next t) {v : UnitId} {l' : Lane}
    (hl : t.lane? v = some l') : ∃ l, s.lane? v = some l := by
  cases e : s.lane? v with
  | some l => exact ⟨l, rfl⟩
  | none =>
    exfalso
    have hc := chooseAgent_state s
    rcases step_cases h with ⟨-, rfl⟩ | ⟨a, -, he⟩
    · rw [hc] at hl
      simp [e] at hl
    · generalize (chooseAgent s).2 = s0 at hc he
      have e0 : s0.lane? v = none := by rw [hc]; simpa using e
      cases he with
      | nothing => rw [e0] at hl; cases hl
      | issued c rest i _ hs hd he =>
        obtain ⟨l, h1⟩ := exec_lane_rev he hl
        simp [e0] at h1
      | posted c rest i hs hd => simp [e0] at hl
      | illegal a c rest e ha hs hd => simp [answerIllegal, e0] at hl
      | reset rest hs =>
        have : (resetBlock { s0 with script := rest }).lane? v = (s0.lane? v).map (fun _ => Lane.reset) := by
          obtain ⟨k, i⟩ := v
          cases k <;> simp only [State.lane?, resetBlock_lanes, List.getElem?_map] <;> rfl
        rw [this, e0] at hl
        cases hl
      | polled u rest p hs hp => simp [e0] at hl
      | waited tid rest hs hw => simp [e0] at hl
      | handed k c i _ hk hd hi he =>
        obtain ⟨l, h1⟩ := exec_lane_rev he hl
        simp [e0] at h1
      | heldIllegal k c e hk hd => simp [answerIllegal, e0] at hl
      | unit u _ hu =>
        cases hu with
        | nothing => rw [e0] at hl; cases hl
        | moved l1 l2 h1 hs =>
          by_cases hv : v = u
          · subst hv; rw [e0] at h1; cases h1
          · rw [State.lane?_setLane_ne hv, e0] at hl; cases hl
        | done l1 l2 d h1 hs =>
          by_cases hv : v = u
          · subst hv; rw [e0] at h1; cases h1
          · rw [State.respond_lane?, State.lane?_setLane_ne hv, e0] at hl; cases hl

/-- The dispatcher takes up the command `c` in the next step (R13, R64): the host, whose turn it is, issues
it, or the dispatcher, whose turn it is, takes it from those held. -/
def TakenUp (s : State) (c : Command) : Prop :=
  ((chooseAgent s).1 = some .host ∧
      (s.script.head? = some (.issue c) ∨ s.script.head? = some (.post c))) ∨
    ∃ m, (chooseAgent s).1 = some (.dispatcher m) ∧ s.held[m]? = some c

/-- Where the one response a step may add comes from: an instruction's checks or a denied request, an
illegal word, or the DONE step of a unit. -/
inductive NewResponse (s : State) (d : Delivery) : Prop
  | checked (c : Command) (i : Instr) (st : Status) (x : Nat)
      (hc : TakenUp s c) (hi : decode c = .ok i)
      (hd : d = { resp := { tid := i.tid, status := st, outLen := 0, info := x }, out := .absent })
      (hv : verdictOf i = .answer st x ∨ (st = .errAlloc ∧ verdictOf i = .ask x))
  | illegal (c : Command) (e : IllegalWord) (hc : TakenUp s c) (he : decode c = .error e)
      (hd : d = { resp := { tid := c.tid, status := .errCmd, outLen := 0, info := c.cmd.toNat },
                  out := .absent })
  | done (u : UnitId) (l l' : Lane) (ha : (chooseAgent s).1 = some (.unit u)) (hl : s.lane? u = some l)
      (hs : unitStep u.kind l = .done l' d)

theorem step_responses {s t : State} (h : step s = .next t) :
    t.responses = s.responses ∨ ∃ d, t.responses = s.responses ++ [d] ∧ NewResponse s d := by
  have hc := chooseAgent_state s
  have e5 : (chooseAgent s).2.responses = s.responses := by rw [hc]
  rcases step_cases h with ⟨-, rfl⟩ | ⟨a, ha, he⟩
  · exact .inl e5
  · generalize (chooseAgent s).2 = s0 at hc e5 he
    have e6 : s0.script = s.script := by rw [hc]
    have e7 : s0.held = s.held := by rw [hc]
    have run : ∀ {c : Command} {i : Instr} {s1 t : State},
        TakenUp s c → decode c = .ok i →
        s1.responses = s0.responses → exec i s1 = .next t →
        t.responses = s.responses ∨ ∃ d, t.responses = s.responses ++ [d] ∧ NewResponse s d := by
      intro c i s1 t hm hd hr he
      rcases exec_responses he with h | ⟨st, x, h, hv⟩
      · exact .inl (h.trans (hr.trans e5))
      · exact .inr ⟨_, by rw [h, hr, e5], .checked c i st x hm hd rfl hv⟩
    cases he with
    | nothing => exact .inl e5
    | issued c rest i _ hs hd he =>
      exact run (s1 := { s0 with script := rest }) (.inl ⟨ha, .inl (by rw [← e6, hs]; rfl)⟩) hd rfl he
    | posted c rest i hs hd => exact .inl (by simp [e5])
    | illegal a c rest e h0 hs hd =>
      refine .inr ⟨_, by simp [answerIllegal, e5], .illegal c e (.inl ⟨ha, ?_⟩) hd rfl⟩
      rw [← e6, hs]
      rcases h0 with rfl | rfl
      · exact .inl rfl
      · exact .inr rfl
    | reset rest hs => exact .inl (by simp [e5])
    | polled u rest p hs hp => exact .inl e5
    | waited tid rest hs hw => exact .inl e5
    | handed k c i _ hk hd hi he =>
      exact run (s1 := { s0 with held := s0.held.eraseIdx k }) (.inr ⟨k, ha, e7 ▸ hk⟩) hd rfl he
    | heldIllegal k c e hk hd =>
      exact .inr ⟨_, by simp [answerIllegal, e5],
        .illegal c e (.inr ⟨k, ha, e7 ▸ hk⟩) hd rfl⟩
    | unit u _ hu =>
      cases hu with
      | nothing => exact .inl e5
      | moved l l' hl hs => exact .inl (by simp [e5])
      | done l l' d hl hs =>
        exact .inr ⟨d, by simp [e5], .done u l l' ha (by rw [hc] at hl; simpa using hl) hs⟩

/-- An instruction holds no command but its own (R64). -/
theorem exec_held {i : Instr} {s t : State} (h : exec i s = .next t) :
    t.held = s.held ∨ t.held = s.held ++ [encode i] := by
  rcases exec_cases h with ⟨-, rfl⟩ | ⟨j, s1, -, hs1, ha⟩
  · exact .inr rfl
  · have e1 : s1.held = s.held := by rw [hs1]
    rcases accept_cases ha with ⟨st, x, hv, rfl⟩ | ⟨n, s2, hv, h2, rfl⟩ | ⟨n, s2, -, h2, rfl⟩
    · exact .inl (by simp [e1])
    · exact .inl (by rw [answerNow_held, allocate_cases h2]; exact e1)
    · refine .inl ?_
      unfold startUnit
      split
      · rw [State.setLane_held, allocate_cases h2]; exact e1
      · rw [allocate_cases h2]; exact e1

/-- The host's script never grows. -/
theorem exec_script {i : Instr} {s t : State} (h : exec i s = .next t) : t.script = s.script := by
  rcases exec_cases h with ⟨-, rfl⟩ | ⟨j, s1, -, hs1, ha⟩
  · rfl
  · have e1 : s1.script = s.script := by rw [hs1]
    rcases accept_cases ha with ⟨st, x, hv, rfl⟩ | ⟨n, s2, hv, h2, rfl⟩ | ⟨n, s2, -, h2, rfl⟩
    · simp [e1]
    · rw [answerNow_script, allocate_cases h2]; exact e1
    · unfold startUnit
      split
      · rw [State.setLane_script, allocate_cases h2]; exact e1
      · rw [allocate_cases h2]; exact e1

/-- Every command held after a step was held before, or is one the host issued in it (R64). -/
theorem step_held {s t : State} (h : step s = .next t) {c : Command} (hm : c ∈ t.held) :
    c ∈ s.held ∨ ((.issue c ∈ s.script ∨ .post c ∈ s.script) ∧ ∃ i, decode c = .ok i) := by
  have hc := chooseAgent_state s
  have e1 : (chooseAgent s).2.held = s.held := by rw [hc]
  have e2 : (chooseAgent s).2.script = s.script := by rw [hc]
  have back : ∀ {c : Command} {i : Instr}, decode c = .ok i → encode i = c := by
    intro c i hd
    unfold decode at hd
    split at hd
    · next o ho =>
      cases hd
      rcases (decodeWord_ok_iff _ _).mp ho with ⟨rfl, h⟩ | ⟨rfl, h⟩ | ⟨rfl, h⟩ <;>
        (cases c; subst h; rfl)
    · cases hd
  rcases step_cases h with ⟨-, rfl⟩ | ⟨a, ha, he⟩
  · exact .inl (e1 ▸ hm)
  · generalize (chooseAgent s).2 = s0 at e1 e2 he
    cases he with
    | nothing => exact .inl (e1 ▸ hm)
    | issued c' rest i _ hs hd he =>
      rcases exec_held he with h | h
      · rw [h] at hm; exact .inl (e1 ▸ hm)
      · rw [h] at hm
        rcases List.mem_append.mp hm with hm | hm
        · exact .inl (e1 ▸ hm)
        · rw [List.mem_singleton, back hd] at hm
          subst hm
          exact .inr ⟨.inl (by rw [← e2, hs]; simp), i, hd⟩
    | posted c' rest i hs hd =>
      rw [hold_held] at hm
      rcases List.mem_append.mp hm with hm | hm
      · exact .inl (e1 ▸ hm)
      · rw [List.mem_singleton] at hm
        subst hm
        exact .inr ⟨.inr (by rw [← e2, hs]; simp), i, hd⟩
    | illegal a c' rest e ha hs hd => exact .inl (by simpa [answerIllegal, e1] using hm)
    | reset rest hs => simp at hm
    | polled u rest p hs hp => exact .inl (e1 ▸ hm)
    | waited tid rest hs hw => exact .inl (e1 ▸ hm)
    | handed k c' i _ hk hd hi he =>
      rcases exec_held he with h | h
      · rw [h] at hm; exact .inl (e1 ▸ List.mem_of_mem_eraseIdx hm)
      · rw [h] at hm
        rcases List.mem_append.mp hm with hm | hm
        · exact .inl (e1 ▸ List.mem_of_mem_eraseIdx hm)
        · rw [List.mem_singleton, back hd] at hm
          subst hm
          exact .inl (e1 ▸ List.mem_of_getElem? hk)
    | heldIllegal k c' e hk hd =>
      simp only [answerIllegal, answerNow_held] at hm
      exact .inl (e1 ▸ List.mem_of_mem_eraseIdx hm)
    | unit u _ hu =>
      cases hu with
      | nothing => exact .inl (e1 ▸ hm)
      | moved l l' hl hs => exact .inl (by simpa [e1] using hm)
      | done l l' d hl hs => exact .inl (by simpa [e1] using hm)

/-- Every act of the host still to come after a step was to come before. -/
theorem step_script {s t : State} (h : step s = .next t) {a : HostAct} (hm : a ∈ t.script) :
    a ∈ s.script := by
  have hc := chooseAgent_state s
  have e2 : (chooseAgent s).2.script = s.script := by rw [hc]
  rcases step_cases h with ⟨-, rfl⟩ | ⟨a', ha, he⟩
  · exact e2 ▸ hm
  · generalize (chooseAgent s).2 = s0 at e2 he
    rw [← e2]
    cases he with
    | nothing => exact hm
    | issued c' rest i _ hs hd he => rw [exec_script he] at hm; rw [hs]; exact List.mem_cons_of_mem _ hm
    | posted c' rest i hs hd => rw [hs]; exact List.mem_cons_of_mem _ (by simpa using hm)
    | illegal a c' rest e ha hs hd =>
      rw [hs]; exact List.mem_cons_of_mem _ (by simpa [answerIllegal] using hm)
    | reset rest hs => rw [hs]; exact List.mem_cons_of_mem _ (by simpa using hm)
    | polled u rest p hs hp => rw [hs]; exact List.mem_cons_of_mem _ hm
    | waited tid rest hs hw => rw [hs]; exact List.mem_cons_of_mem _ hm
    | handed k c' i _ hk hd hi he => rw [exec_script he] at hm; exact hm
    | heldIllegal k c' e hk hd => simpa [answerIllegal] using hm
    | unit u _ hu =>
      cases hu with
      | nothing => exact hm
      | moved l l' hl hs => simpa using hm
      | done l l' d hl hs => simpa using hm

end Sys2Proof.Machine
end

