-- ==== Sys2Proof/Laws/PerInstr.lean ====
section
/-! SUPPORT. Statements made per instruction as syntax: the fields of the command word of each instruction, and its operands in the command tuple. -/

namespace Sys2Proof.Laws.Fields

open Sys2Proof Sys2Proof.Machine

/-- The fields of an instruction's command word (R53 to R56): RSV is zero, OP names the kind of unit
that runs it, STRICT is set for DECODE.S alone; and the tuple holds the operands as they are, so that
the host's duty (R59) is the same for both. -/
def Statement (i : Instr) : Prop :=
  rsvField (encode i).cmd = 0 ∧
    opField (encode i).cmd = (match unitKind i with | .enc => 0b01#2 | .dec => 0b10#2) ∧
    (strictField (encode i).cmd = true ↔ (encode i).cmd = 0x06#8) ∧
    (encode i).tid = i.tid ∧ (encode i).len = i.len ∧ (encode i).input = i.input ∧
    ((encode i).WellFormed ↔ i.WellFormed)

theorem encode (t n : Nat) (b : List Byte) : Statement (.encode t n b) :=
  ⟨(by decide : rsvField 0x01#8 = 0), (by decide : opField 0x01#8 = 0b01#2),
    (by decide : strictField 0x01#8 = true ↔ 0x01#8 = 0x06#8), rfl, rfl, rfl, Iff.rfl⟩

theorem decode (t n : Nat) (b : List Byte) : Statement (.decode t n b) :=
  ⟨(by decide : rsvField 0x02#8 = 0), (by decide : opField 0x02#8 = 0b10#2),
    (by decide : strictField 0x02#8 = true ↔ 0x02#8 = 0x06#8), rfl, rfl, rfl, Iff.rfl⟩

theorem decodeS (t n : Nat) (b : List Byte) : Statement (.decodeS t n b) :=
  ⟨(by decide : rsvField 0x06#8 = 0), (by decide : opField 0x06#8 = 0b10#2),
    (by decide : strictField 0x06#8 = true ↔ 0x06#8 = 0x06#8), rfl, rfl, rfl, Iff.rfl⟩

end Sys2Proof.Laws.Fields
end

