-- ==== Sys2Proof/Laws/Units.lean ====
section
/-! SUPPORT. What each step of a unit does to the relations of R26 (`Running`): the start of a command, ACC, EMIT, and the fault; one lemma per step, for both kinds of unit. -/

namespace Sys2Proof.Machine

/-! ### Which step is enabled -/

theorem phase_acc {k : UnitKind} {r : UnitRegs} (h : r.st = .run) (hp : r.ph.toNat < groupIn k)
    (hi : r.ip < r.n) : phase k r = .acc := (phase_cases k r).1.mpr ⟨h, hp, hi⟩

theorem phase_emit {k : UnitKind} {r : UnitRegs} (h : r.st = .run) (hp : r.ph.toNat = groupIn k) :
    phase k r = .emit := (phase_cases k r).2.1.mpr ⟨h, hp⟩

theorem phase_done {k : UnitKind} {r : UnitRegs} (h : r.st = .run) (hp : r.ph.toNat = 0) (hi : r.ip = r.n) :
    phase k r = .done := (phase_cases k r).2.2.mpr ⟨h, hp, hi⟩

theorem phase_stuck {k : UnitKind} {r : UnitRegs} (h : r.st ≠ .run) : phase k r = .stuck := by
  simp [phase, h]

/-! ### The step taken -/

theorem unitStep_acc_enc {l : Lane} {b : Byte} (h : phase .enc l.regs = .acc)
    (hb : l.inp.read l.regs.ip = some b) :
    unitStep .enc l = .moved (l.accumulated (accByte l.regs.acc b)) := by
  rw [unitStep_eq, h]
  simp [encAcc, hb]

theorem unitStep_acc_dec {l : Lane} {c : Byte} {d : Nat} (h : phase .dec l.regs = .acc)
    (hc : l.inp.read l.regs.ip = some c) (hd : digitOf c = some d) :
    unitStep .dec l = .moved (l.accumulated (accDigit l.regs.acc d)) := by
  rw [unitStep_eq, h]
  simp only [decAcc, hc]
  unfold digitOf at hd
  split at hd <;> simp_all

theorem unitStep_acc_fault {l : Lane} {c : Byte} (h : phase .dec l.regs = .acc)
    (hc : l.inp.read l.regs.ip = some c) (hd : digitOf c = none) :
    unitStep .dec l = .moved (l.raiseFault c) := by
  rw [unitStep_eq, h]
  simp only [decAcc, hc]
  unfold digitOf at hd
  split at hd <;> simp_all

theorem unitStep_emit_moved {k : UnitKind} {l : Lane} (h : phase k l.regs = .emit)
    (hs : l.regs.opos + groupOut k ≤ l.out.size) :
    ∃ m, l.out.writeAll l.regs.opos (emitBytes k l.regs.acc) = .ok m ∧
      unitStep k l = .moved { l with
        out := m, regs := { l.regs with opos := l.regs.opos + groupOut k, acc := 0#32, ph := 0#3 } } := by
  rw [unitStep_emit h]
  obtain ⟨m, hm⟩ := Memory.writeAll_ok (m := l.out) (a := l.regs.opos)
    (bs := emitBytes k l.regs.acc) (by simpa using hs)
  exact ⟨m, hm, by simp [Lane.emit, hm]⟩

/-! ### The elements read so far -/

theorem Memory.first_zero (m : Memory) : m.first 0 = [] := rfl

theorem Memory.first_succ {m : Memory} {t : Nat} {b : Byte} (h : m.read t = some b) :
    m.first (t + 1) = m.first t ++ [b] := by
  simp [Memory.first, List.range_succ, h]

theorem Memory.first_length {m : Memory} {t : Nat} (h : ∀ j < t, ∃ b, m.read j = some b) :
    (m.first t).length = t := by
  induction t with
  | zero => rfl
  | succ t ih =>
    obtain ⟨b, hb⟩ := h t (by omega)
    rw [Memory.first_succ hb]
    simp [ih (fun j hj => h j (by omega))]

theorem Memory.mem_first {m : Memory} {t : Nat} {c : Byte} (h : c ∈ m.first t) :
    ∃ j < t, m.read j = some c := by
  simp only [Memory.first, List.mem_filterMap, List.mem_range] at h
  exact h

theorem Memory.first_ofBytes {bs : List Byte} {t : Nat} (h : t ≤ bs.length) :
    (Memory.ofBytes bs.length bs).first t = bs.take t := by
  induction t with
  | zero => rfl
  | succ t ih =>
    have hr : (Memory.ofBytes bs.length bs).read t = some bs[t] := by
      rw [Memory.read_ofBytes, if_pos (by omega), List.getElem?_eq_getElem]
    rw [Memory.first_succ hr, ih (by omega), List.take_add_one, List.getElem?_eq_getElem (by omega)]
    rfl

theorem groupIn_pos (k : UnitKind) : 0 < groupIn k := by cases k <;> decide

/-- A text of whole groups gives whole groups (R107). -/
theorem groupBytes_length {k : UnitKind} {bs : List Byte}
    (h : k = .dec → ∀ c ∈ bs, inRange c = true) :
    (groupBytes k bs).length = groupOut k * (bs.length / groupIn k) := by
  cases k
  · exact encBytes_length bs
  · exact decBytes_length (h rfl)

/-- What a running unit has read, all of it there and, for a decoder, in range. -/
theorem Running.first {k : UnitKind} {l : Lane} (h : Running k l) {t : Nat} (ht : t ≤ l.regs.ip) :
    (l.inp.first t).length = t ∧ (k = .dec → ∀ c ∈ l.inp.first t, inRange c = true) := by
  refine ⟨Memory.first_length (fun j hj => ?_), ?_⟩
  · obtain ⟨b, hb, -⟩ := h.inp_read j (by omega)
    exact ⟨b, hb⟩
  · rintro rfl c hc
    obtain ⟨j, hj, hr⟩ := Memory.mem_first hc
    obtain ⟨b, hb, hi⟩ := h.inp_read j (by omega)
    rw [hr] at hb
    cases hb
    exact hi rfl

/-! ### The start of a command (R81, R97) -/

theorem Running.start {k : UnitKind} {c : Command} {n : Nat} (l : Lane)
    (hl : c.len % groupIn k = 0) (hn : n = outLen k c.len) : Running k (l.start c n) := by
  subst hn
  constructor
  · exact hl
  · exact Nat.zero_le _
  · exact Nat.zero_le _
  · exact Nat.zero_le _
  · exact Nat.zero_mod _
  · simp
  · intro _; rfl
  · rfl
  · intro _; exact ⟨by simp, rfl⟩
  · rfl
  · exact Memory.wf_ofBytes _ _
  · intro j hj; cases hj
  · have : groupBytes k [] = [] := by cases k <;> simp [groupBytes, encBytes, decBytes]
    simp [Memory.first_zero, this, ← Memory.fresh_eq_ofBytes]

/-! ### ACC (R82, R98) -/

theorem groupSum_accumulated {k : UnitKind} {l : Lane} {b : Byte} (a : U32)
    (hb : l.inp.read l.regs.ip = some b) (h : l.regs.ph.toNat ≤ l.regs.ip)
    (hp : l.regs.ph.toNat < groupIn k) :
    groupSum k (l.accumulated a) = groupSum k l * accBase k + elemValue k b := by
  simp only [groupSum, Lane.accumulated_ph_toNat a hp, Lane.accumulated_ip, Lane.accumulated_inp]
  rw [Finset.sum_range_succ, Finset.sum_mul]
  congr 1
  · apply Finset.sum_congr rfl
    intro j hj
    have hj := Finset.mem_range.mp hj
    rw [show l.regs.ip + 1 - (l.regs.ph.toNat + 1) + j = l.regs.ip - l.regs.ph.toNat + j by omega,
      show l.regs.ph.toNat + 1 - 1 - j = (l.regs.ph.toNat - 1 - j) + 1 by omega, pow_succ, Nat.mul_assoc]
  · rw [show l.regs.ip + 1 - (l.regs.ph.toNat + 1) + l.regs.ph.toNat = l.regs.ip by omega, hb]
    simp

theorem acc_bound {x y p : Nat} (h : x < 256 ^ p) (hy : y < 256) : x * 256 + y < 256 ^ (p + 1) := by
  rw [pow_succ]
  omega

/-- An ACC step keeps the relations of R26, whatever the element, if a decoder's has a digit. -/
theorem Running.accumulated {k : UnitKind} {l : Lane} {b : Byte} {a : U32} (h : Running k l)
    (hp : l.regs.ph.toNat < groupIn k) (hi : l.regs.ip < l.regs.n) (hb : l.inp.read l.regs.ip = some b)
    (ha : (k = .enc ∧ a = accByte l.regs.acc b) ∨
      (k = .dec ∧ ∃ d, digitOf b = some d ∧ a = accDigit l.regs.acc d)) :
    Running k (l.accumulated a) := by
  have hs := groupSum_accumulated (k := k) a hb h.ph_le_ip hp
  have hph := Lane.accumulated_ph_toNat a hp
  have hsub : l.regs.ip + 1 - (l.regs.ph.toNat + 1) = l.regs.ip - l.regs.ph.toNat := by omega
  have hsum : a = wrap32 (groupSum k (l.accumulated a)) := by
    rw [hs]
    rcases ha with ⟨rfl, rfl⟩ | ⟨rfl, d, hd, rfl⟩
    · rw [h.acc_sum, accByte_wrap32]; rfl
    · rw [h.acc_sum, accDigit_wrap32]; simp [accBase, elemValue, hd]
  constructor
  · exact h.len_ok
  · rw [hph]; exact hp
  · rw [hph]; exact Nat.succ_le_succ h.ph_le_ip
  · exact hi
  · simp only [Lane.accumulated_ip, hph]
    rw [hsub]; exact h.aligned
  · simp only [Lane.accumulated_ip, hph, Lane.accumulated_opos]
    rw [hsub]; exact h.opos_eq
  · rw [hph]; intro h; cases h
  · exact hsum
  · rintro rfl
    obtain ⟨e1, e2⟩ := h.acc_small rfl
    have hlt : l.regs.acc.toNat * 256 + b.toNat < 256 ^ (l.regs.ph.toNat + 1) := acc_bound e1 b.isLt
    have h4 : 256 ^ (l.regs.ph.toNat + 1) ≤ 256 ^ 4 :=
      Nat.pow_le_pow_right (by decide) (by simpa [groupIn] using hp)
    have he : groupSum .enc (l.accumulated a) = l.regs.acc.toNat * 256 + b.toNat := by
      rw [hs, ← e2]; rfl
    have hn : a.toNat = l.regs.acc.toNat * 256 + b.toNat := by
      rw [hsum, he, wrap32_toNat, Nat.mod_eq_of_lt (by omega)]
    exact ⟨by simpa only [hph, Lane.accumulated_acc, hn] using hlt, by rw [he]; exact hn⟩
  · exact h.inp_size
  · exact h.inp_wf
  · intro j hj
    simp only [Lane.accumulated_ip, Lane.accumulated_inp] at hj ⊢
    by_cases e : j = l.regs.ip
    · subst e
      refine ⟨b, hb, ?_⟩
      rintro rfl
      rcases ha with ⟨h, -⟩ | ⟨-, d, hd, -⟩
      · cases h
      · have := digitOf_isSome b
        rw [hd] at this
        exact this.symm
    · exact h.inp_read j (by omega)
  · simp only [Lane.accumulated_out, Lane.accumulated_n, Lane.accumulated_ip, hph,
      Lane.accumulated_inp]
    rw [hsub]; exact h.out_eq

/-- The fault leaves the relations of R26 as they were (R116). -/
theorem Running.raiseFault {k : UnitKind} {l : Lane} (h : Running k l) (c : Byte) :
    Running k (l.raiseFault c) :=
  ⟨h.len_ok, h.ph_le, h.ph_le_ip, h.ip_le, h.aligned, h.opos_eq, h.acc_zero, h.acc_sum, h.acc_small,
    h.inp_size, h.inp_wf, h.inp_read, h.out_eq⟩

/-! ### EMIT (R83, R99) -/

/-- The group just read adds exactly the bytes an EMIT step writes. -/
theorem groupBytes_emit {k : UnitKind} {l : Lane} (h : Running k l) (hp : l.regs.ph.toNat = groupIn k) :
    groupBytes k (l.inp.first l.regs.ip) =
      groupBytes k (l.inp.first (l.regs.ip - groupIn k)) ++ emitBytes k l.regs.acc := by
  have hle := h.ph_le_ip
  have hal := h.aligned
  have hsum := h.acc_sum
  unfold groupSum at hsum
  rw [hp] at hle hal
  obtain ⟨t, ht⟩ : ∃ t, l.regs.ip = t + groupIn k := ⟨l.regs.ip - groupIn k, by omega⟩
  rw [hp, ht, Nat.add_sub_cancel] at hsum
  rw [ht, Nat.add_sub_cancel]
  rw [ht, Nat.add_sub_cancel] at hal
  have hrd : ∀ j < t + groupIn k, _ := fun j hj => h.inp_read j (by omega)
  have hlen : (l.inp.first t).length = t := (h.first (by omega)).1
  have hin := (h.first (t := t) (by omega)).2
  cases k
  · simp only [groupIn] at *
    obtain ⟨b0, r0, -⟩ := hrd t (by omega)
    obtain ⟨b1, r1, -⟩ := hrd (t + 1) (by omega)
    obtain ⟨b2, r2, -⟩ := hrd (t + 2) (by omega)
    obtain ⟨b3, r3, -⟩ := hrd (t + 3) (by omega)
    rw [Memory.first_succ r3, Memory.first_succ r2, Memory.first_succ r1, Memory.first_succ r0]
    simp only [List.append_assoc, List.cons_append, List.nil_append, groupBytes]
    rw [encBytes_append _ (by omega)]
    congr 1
    simp only [encBytes, List.append_nil, emitBytes]
    congr 1
    rw [hsum]
    simp [Finset.sum_range_succ, r0, r1, r2, r3, elemValue, accBase, be32]
  · simp only [groupIn] at *
    obtain ⟨b0, r0, i0⟩ := hrd t (by omega)
    obtain ⟨b1, r1, i1⟩ := hrd (t + 1) (by omega)
    obtain ⟨b2, r2, i2⟩ := hrd (t + 2) (by omega)
    obtain ⟨b3, r3, i3⟩ := hrd (t + 3) (by omega)
    obtain ⟨b4, r4, i4⟩ := hrd (t + 4) (by omega)
    rw [Memory.first_succ r4, Memory.first_succ r3, Memory.first_succ r2, Memory.first_succ r1,
      Memory.first_succ r0]
    simp only [List.append_assoc, List.cons_append, List.nil_append, groupBytes]
    rw [decBytes_append _ (by omega) (hin trivial)]
    congr 1
    obtain ⟨d0, e0, -⟩ := exists_digit_of_inRange (i0 trivial)
    obtain ⟨d1, e1, -⟩ := exists_digit_of_inRange (i1 trivial)
    obtain ⟨d2, e2, -⟩ := exists_digit_of_inRange (i2 trivial)
    obtain ⟨d3, e3, -⟩ := exists_digit_of_inRange (i3 trivial)
    obtain ⟨d4, e4, -⟩ := exists_digit_of_inRange (i4 trivial)
    simp only [decBytes, emitBytes, decGroup, decVal, e0, e1, e2, e3, e4, Option.map, List.append_nil]
    congr 1
    rw [hsum]
    simp [Finset.sum_range_succ, r0, r1, r2, r3, r4, elemValue, accBase, e0, e1, e2, e3, e4]

theorem groups_div {g ip n : Nat} (hg : 0 < g) (h1 : g ≤ ip) (h2 : ip ≤ n) :
    (ip - g) / g + 1 = ip / g ∧ ip / g ≤ n / g := by
  refine ⟨?_, Nat.div_le_div_right h2⟩
  obtain ⟨t, rfl⟩ : ∃ t, ip = t + g := ⟨ip - g, by omega⟩
  simp [Nat.add_div_right _ hg]

/-- An EMIT step of a running unit writes inside its buffer, and OUT then holds one group more. -/
theorem Running.writeAll_emit {k : UnitKind} {l : Lane} (h : Running k l) (hp : l.regs.ph.toNat = groupIn k) :
    l.out.writeAll l.regs.opos (emitBytes k l.regs.acc) =
      .ok (Memory.ofBytes (outLen k l.regs.n) (groupBytes k (l.inp.first l.regs.ip))) := by
  have hle := h.ph_le_ip
  obtain ⟨e1, e2⟩ := h.first (t := l.regs.ip - groupIn k) (by omega)
  have hl := groupBytes_length e2
  rw [e1] at hl
  have ho := h.opos_eq
  have hout := h.out_eq
  rw [hp] at hout ho hle
  obtain ⟨d1, d2⟩ := groups_div (groupIn_pos k) hle h.ip_le
  rw [hout, groupBytes_emit h hp, ho, ← hl]
  apply Memory.writeAll_ofBytes
  rw [hl, emitBytes_length, outLen, ← Nat.mul_succ, Nat.succ_eq_add_one, d1]
  exact Nat.mul_le_mul_left _ d2

/-- An EMIT step keeps the relations of R26. -/
theorem Running.emitted {k : UnitKind} {l : Lane} {m : Memory} (h : Running k l)
    (hp : l.regs.ph.toNat = groupIn k)
    (hm : l.out.writeAll l.regs.opos (emitBytes k l.regs.acc) = .ok m) :
    Running k { l with
      out := m, regs := { l.regs with opos := l.regs.opos + groupOut k, acc := 0#32, ph := 0#3 } } := by
  rw [h.writeAll_emit hp] at hm
  cases hm
  have hle := h.ph_le_ip
  have ho := h.opos_eq
  have hal := h.aligned
  rw [hp] at ho hle hal
  obtain ⟨d1, d2⟩ := groups_div (groupIn_pos k) hle h.ip_le
  constructor
  · exact h.len_ok
  · exact Nat.zero_le _
  · exact Nat.zero_le _
  · exact h.ip_le
  · obtain ⟨t, ht⟩ : ∃ t, l.regs.ip = t + groupIn k := ⟨l.regs.ip - groupIn k, by omega⟩
    simpa [ht] using hal
  · change l.regs.opos + groupOut k = groupOut k * (l.regs.ip / groupIn k)
    rw [ho, ← d1]; rfl
  · intro _; rfl
  · rfl
  · intro _; exact ⟨by simp, rfl⟩
  · exact h.inp_size
  · exact h.inp_wf
  · exact h.inp_read
  · rfl

/-! ### DONE (R84, R100) -/

/-- At its DONE step a unit has written its whole output: `opos = 5n/4` or `4n/5`. -/
theorem Running.done {k : UnitKind} {l : Lane} (h : Running k l) (hp : l.regs.ph.toNat = 0)
    (hi : l.regs.ip = l.regs.n) :
    l.regs.opos = outLen k l.regs.n ∧
      l.out = Memory.ofBytes (outLen k l.regs.n) (groupBytes k (l.inp.first l.regs.n)) := by
  have ho := h.opos_eq
  have hout := h.out_eq
  rw [hp, Nat.sub_zero, hi] at ho hout
  exact ⟨ho, hout⟩

end Sys2Proof.Machine
end

