-- ==== Sys2Proof/Laws/Runs.lean ====
section
/-! SUPPORT. Executions (R144): how the count of a unit's turns grows, and what a step can do once the host has nothing more to do. -/

namespace Sys2Proof.Machine

theorem unitTurns_succ_of_takes {run : Nat → State} {u : UnitId} {k : Nat} (h : Takes (run k) (.unit u)) :
    unitTurns run u (k + 1) = unitTurns run u k + 1 := by
  unfold unitTurns
  rw [Nat.count_succ, if_pos (by exact h)]

theorem unitTurns_succ_of_not_takes {run : Nat → State} {u : UnitId} {k : Nat}
    (h : ¬ Takes (run k) (.unit u)) : unitTurns run u (k + 1) = unitTurns run u k := by
  unfold unitTurns
  rw [Nat.count_succ, if_neg (by exact h), Nat.add_zero]

/-- An instruction that finds an IDLE unit of its kind holds nothing (R64). -/
theorem exec_held_idle {i : Instr} {s t : State} (hi : s.idleUnits (unitKind i) ≠ [])
    (h : exec i s = .next t) : t.held = s.held := by
  rcases exec_cases h with ⟨h0, -⟩ | ⟨j, s1, -, hs1, ha⟩
  · exact absurd h0 hi
  · have e1 : s1.held = s.held := by rw [hs1]
    rcases accept_cases ha with ⟨st, x, -, rfl⟩ | ⟨n, s2, -, h2, rfl⟩ | ⟨n, s2, -, h2, rfl⟩
    · simp [e1]
    · rw [answerNow_held, allocate_cases h2]; exact e1
    · unfold startUnit
      split
      · rw [State.setLane_held, allocate_cases h2]; exact e1
      · rw [allocate_cases h2]; exact e1

/-- When the host has nothing more to do, a step keeps the held commands and every IDLE unit as they are,
or takes a command out of those held. -/
theorem step_quiet {s t : State} (h : step s = .next t) (hs : s.script = []) :
    (t.held = s.held ∧ ∀ v l, s.lane? v = some l → l.regs.st = .idle → t.lane? v = some l) ∨
    t.held.length < s.held.length := by
  have hc := chooseAgent_state s
  have e1 : (chooseAgent s).2.held = s.held := by rw [hc]
  have e2 : (chooseAgent s).2.script = [] := by rw [hc]; exact hs
  have e3 : ∀ v, (chooseAgent s).2.lane? v = s.lane? v := fun v => by
    rw [hc]; exact State.lane?_congr rfl rfl v
  rcases step_cases h with ⟨-, rfl⟩ | ⟨a, -, he⟩
  · exact .inl ⟨e1, fun v l hl _ => (e3 v).trans hl⟩
  · generalize (chooseAgent s).2 = s0 at e1 e2 e3 he
    have short : ∀ {k : Nat} {c : Command}, s0.held[k]? = some c →
        (s0.held.eraseIdx k).length < s.held.length := by
      intro k c hk
      have := (List.getElem?_eq_some_iff.mp hk).1
      rw [List.length_eraseIdx_of_lt this, ← e1]
      omega
    cases he with
    | nothing => exact .inl ⟨e1, fun v l hl _ => (e3 v).trans hl⟩
    | issued c rest i _ hs hd he => rw [e2] at hs; cases hs
    | posted c rest i hs hd => rw [e2] at hs; cases hs
    | illegal a c rest e ha hs hd => rw [e2] at hs; cases hs
    | reset rest hs => rw [e2] at hs; cases hs
    | polled u rest p hs hp => rw [e2] at hs; cases hs
    | waited tid rest hs hw => rw [e2] at hs; cases hs
    | handed k c i _ hk hd hi he =>
      right
      rw [exec_held_idle (by simpa using hi) he]
      exact short hk
    | heldIllegal k c e hk hd =>
      right
      simp only [answerIllegal, answerNow_held]
      exact short hk
    | unit u _ hu =>
      have other : ∀ {l}, s0.lane? u = some l → unitStep u.kind l ≠ .idle → ∀ v l2,
          s.lane? v = some l2 → l2.regs.st = .idle → v ≠ u := by
        rintro l hl hs v l2 hl2 hi rfl
        rw [e3, hl2] at hl
        cases hl
        exact hs (unitStep_stuck (phase_stuck (by simp [hi])))
      cases hu with
      | nothing => exact .inl ⟨e1, fun v l hl _ => (e3 v).trans hl⟩
      | moved l l' hl hs =>
        refine .inl ⟨by simpa using e1, fun v l2 hl2 hi => ?_⟩
        rw [State.lane?_setLane_ne (other hl (by simp [hs]) v l2 hl2 hi), e3]
        exact hl2
      | done l l' d hl hs =>
        refine .inl ⟨by simpa using e1, fun v l2 hl2 hi => ?_⟩
        rw [State.respond_lane?, State.lane?_setLane_ne (other hl (by simp [hs]) v l2 hl2 hi), e3]
        exact hl2

/-- The dispatcher's turn for a held command whose kind has an IDLE unit takes the command out of those
held (R64). -/
theorem step_handsOver {s t : State} {c : Command} {i : Instr} (h : step s = .next t)
    (hh : HandsOver s c) (hd : decode c = .ok i) (hi : s.idleUnits (unitKind i) ≠ []) :
    t.held.length < s.held.length := by
  obtain ⟨m, ha, hm⟩ := hh
  have hc := chooseAgent_state s
  rw [step_eq, show (chooseAgent s).1 = _ from ha] at h
  generalize (chooseAgent s).2 = s0 at hc h
  have e1 : s0.held = s.held := by rw [hc]
  have e2 : ∀ x, ({ s0 with held := x } : State).idleUnits (unitKind i) = s.idleUnits (unitKind i) := by
    intro x
    rw [hc]
    cases unitKind i <;> rfl
  have e3 : s0.idleUnits (unitKind i) ≠ [] := (e2 s0.held).symm ▸ hi
  simp only [agentMove, dispatcherMove, e1, hm, hd, e3, if_false, Move.outcome] at h
  rw [exec_held_idle (by rw [e2]; exact hi) h]
  have := (List.getElem?_eq_some_iff.mp hm).1
  simp only [List.length_eraseIdx_of_lt this]
  omega

/-- Once the host has nothing more to do, it has nothing more to do (R131). -/
theorem Execution.script_nil {run : Nat → State} (hE : Execution run) {k : Nat}
    (h : (run k).script = []) (d : Nat) : (run (k + d)).script = [] := by
  induction d with
  | zero => exact h
  | succ d ih =>
    rw [List.eq_nil_iff_forall_not_mem]
    intro a ha
    have := step_script (hE (k + d)) ha
    rw [ih] at this
    cases this

/-- From a point on at which the host has nothing more to do, and as long as no held command is taken up,
the held commands stay, and so does every unit once it is IDLE. -/
theorem Execution.quiet {run : Nat → State} (hE : Execution run) {k : Nat} (hs : (run k).script = [])
    (hn : ∀ j ≥ k, (run k).held.length ≤ (run j).held.length) :
    (∀ d, (run (k + d)).held = (run k).held) ∧
    ∀ d v l, (run (k + d)).lane? v = some l → l.regs.st = .idle →
      ∀ x, (run (k + d + x)).lane? v = some l := by
  have held : ∀ d, (run (k + d)).held = (run k).held := by
    intro d
    induction d with
    | zero => rfl
    | succ d ih =>
      rcases step_quiet (hE (k + d)) (hE.script_nil hs d) with ⟨h, -⟩ | h
      · exact h.trans ih
      · have := hn (k + d + 1) (by omega)
        rw [ih] at h
        omega
  refine ⟨held, fun d v l hl hi x => ?_⟩
  induction x with
  | zero => exact hl
  | succ x ih =>
    rcases step_quiet (hE (k + d + x)) (by rw [Nat.add_assoc]; exact hE.script_nil hs _) with ⟨-, h⟩ | h
    · exact h v l ih hi
    · rw [Nat.add_assoc k d x, Nat.add_assoc k (d + x) 1, held, held] at h
      omega

/-- A point from which every unit of a finite list is IDLE for ever, if there is one for each of them. -/
theorem exists_all_idle {run : Nat → State} {k : Nat} (vs : List UnitId)
    (h : ∀ v ∈ vs, ∃ d, ∀ x, (run (k + d + x)).status v = some .idle) :
    ∃ d, ∀ v ∈ vs, ∀ x, (run (k + d + x)).status v = some .idle := by
  induction vs with
  | nil => exact ⟨0, fun v hv => absurd hv (by simp)⟩
  | cons w vs ih =>
    obtain ⟨d1, h1⟩ := h w (by simp)
    obtain ⟨d2, h2⟩ := ih (fun v hv => h v (List.mem_cons_of_mem _ hv))
    refine ⟨d1 + d2, fun v hv x => ?_⟩
    rcases List.mem_cons.mp hv with rfl | hv
    · rw [show k + (d1 + d2) + x = k + d1 + (d2 + x) by omega]
      exact h1 _
    · rw [show k + (d1 + d2) + x = k + d2 + (d1 + x) by omega]
      exact h2 v hv _

/-- An execution never gains a unit (R128). -/
theorem Execution.lane_back {run : Nat → State} (hE : Execution run) {k : Nat} {v : UnitId} (d : Nat)
    {l : Lane} (h : (run (k + d)).lane? v = some l) : ∃ l0, (run k).lane? v = some l0 := by
  induction d generalizing l with
  | zero => exact ⟨l, h⟩
  | succ d ih =>
    obtain ⟨l1, h1⟩ := step_lane_rev (hE (k + d)) h
    exact ih h1

end Sys2Proof.Machine
end

