-- ==== Sys2Proof/Tests/Slice0.lean ====
section
/-! SUPPORT. Tests of the decoder and of each instruction, with values taken from spec/95_test_vectors.md and the rules' own examples; and for each obligation with hypotheses a state that meets them. -/

namespace Sys2Proof.Tests

open Sys2Proof Sys2Proof.Machine

/-! ### Small states -/

/-- The next state of an outcome. -/
def after (o : Outcome) : Option State :=
  match o with
  | .next s => some s
  | .fault _ => none
  | .refused _ => none

/-- The last response of an outcome's next state. -/
def answer (o : Outcome) : Option Response :=
  ((after o).bind (fun s => s.responses.getLast?)).map (fun d => d.resp)

/-- The record of unit `u` in an outcome's next state. -/
def regsOf (u : UnitId) (o : Outcome) : Option UnitRegs :=
  ((after o).bind (fun s => s.lane? u)).map (fun l => l.regs)

/-- The first encoder unit and the first decoder unit. -/
def enc0 : UnitId := ⟨.enc, 0⟩
def dec0 : UnitId := ⟨.dec, 0⟩

/-- The block after reset, with a host that answers as listed. -/
def answering (l : List (Nat × Alloc)) : State := { State.reset with answers := l }

/-- The data of vector W1 and its text, `HelloWorld`. -/
def w1Bytes : List Byte := [0x86#8, 0x4F#8, 0xD2#8, 0x6F#8, 0xB5#8, 0x59#8, 0xF7#8, 0x5B#8]
def w1Text : List Byte :=
  [0x48#8, 0x65#8, 0x6C#8, 0x6C#8, 0x6F#8, 0x57#8, 0x6F#8, 0x72#8, 0x6C#8, 0x64#8]

/-- Trace T1 after its sixth row: an encoder that has emitted `Hello` and read one byte more. -/
def encMid : Lane :=
  { regs := { st := .run, tid := 1, cmd := 0x01#8, n := 8, ip := 5, opos := 5, ph := 1#3, acc := 0xB5#32,
              fkind := .noFault, finfo := (0, 0x00#8) },
    inp := Memory.ofBytes 8 w1Bytes, out := Memory.ofBytes 10 (w1Text.take 5) }

/-- Trace T1 before its first EMIT step. -/
def encFull : Lane :=
  { regs := { st := .run, tid := 1, cmd := 0x01#8, n := 8, ip := 4, opos := 0, ph := 4#3,
              acc := 0x864FD26F#32, fkind := .noFault, finfo := (0, 0x00#8) },
    inp := Memory.ofBytes 8 w1Bytes, out := Memory.fresh 10 }

/-- Trace T1 before its DONE step. -/
def encLast : Lane :=
  { regs := { st := .run, tid := 1, cmd := 0x01#8, n := 8, ip := 8, opos := 10, ph := 0#3, acc := 0#32,
              fkind := .noFault, finfo := (0, 0x00#8) },
    inp := Memory.ofBytes 8 w1Bytes, out := Memory.ofBytes 10 w1Text }

/-- The input of trace T4: `HelloWorl` and a code out of range. -/
def t4Text : List Byte := w1Text.take 9 ++ [0x80#8]

/-- Trace T4 before its fifth ACC step, and before the step that faults, and after it. -/
def decOne : Lane :=
  { regs := { st := .run, tid := 2, cmd := 0x02#8, n := 10, ip := 1, opos := 0, ph := 1#3, acc := 43#32,
              fkind := .noFault, finfo := (0, 0x00#8) },
    inp := Memory.ofBytes 10 t4Text, out := Memory.fresh 8 }

def decBad : Lane :=
  { regs := { st := .run, tid := 2, cmd := 0x02#8, n := 10, ip := 9, opos := 4, ph := 4#3,
              acc := 35794966#32, fkind := .noFault, finfo := (0, 0x00#8) },
    inp := Memory.ofBytes 10 t4Text, out := Memory.ofBytes 8 (w1Bytes.take 4) }

def decFaulted : Lane :=
  { decBad with regs := { decBad.regs with
      st := .fault, fkind := .undefinedLookup, finfo := (9, 0x80#8) } }

/-- Trace T2 before its first EMIT step and before its DONE step. -/
def decFull : Lane :=
  { regs := { st := .run, tid := 2, cmd := 0x02#8, n := 10, ip := 5, opos := 0, ph := 5#3,
              acc := 2253378159#32, fkind := .noFault, finfo := (0, 0x00#8) },
    inp := Memory.ofBytes 10 w1Text, out := Memory.fresh 8 }

def decLast : Lane :=
  { regs := { st := .run, tid := 2, cmd := 0x02#8, n := 10, ip := 10, opos := 8, ph := 0#3, acc := 0#32,
              fkind := .noFault, finfo := (0, 0x00#8) },
    inp := Memory.ofBytes 10 w1Text, out := Memory.ofBytes 8 w1Bytes }

/-- A block of one encoder and one decoder in given states, in which agent `a` moves next. -/
def block (a : Agent) (e d : Lane) : State := { State.reset with enc := [e], dec := [d], turns := [a] }

/-- The same with a held command and an OK response in the history. -/
def busy : State :=
  { block (.unit enc0) encMid decFaulted with
    held := [{ tid := 8, cmd := 0x02#8, len := 5, input := [0x30#8, 0x30#8, 0x30#8, 0x30#8, 0x30#8] }],
    responses := [{ resp := { tid := 7, status := .ok, outLen := 5, info := 0 },
                    out := Memory.ofBytes 5 (w1Text.take 5) }] }

/-! ### Well-formedness -/

/-- A command that supplies fewer or more bytes than LEN is ill-formed, and one that supplies exactly
LEN is well formed even when LEN is no multiple of the group (R59, R111). -/
theorem test_wellFormed :
    ¬ (Instr.encode 1 4 [0x00#8]).WellFormed ∧ ¬ (Instr.decode 1 0 [0x30#8]).WellFormed ∧
      ¬ (Instr.decodeS 1 5 []).WellFormed ∧ (Instr.encode 1 1 [0x00#8]).WellFormed ∧
      ¬ ({ tid := 1, cmd := 0x05#8, len := 4, input := [] } : Command).WellFormed := by decide

/-! ### Decoding: words written out from R53, RSV in bits 7 to 3, STRICT in bit 2, OP in bits 1 to 0 -/

theorem test_decode_encode :
    decodeWord 0b00000001#8 = .ok .encode ∧ decodeTableWord 8 0b00000001 = some (.encode 0 0 []) := by
  decide

theorem test_decode_decode :
    decodeWord 0b00000010#8 = .ok .decode ∧ decodeTableWord 8 0b00000010 = some (.decode 0 0 []) := by
  decide

theorem test_decode_decodeS :
    decodeWord 0b00000110#8 = .ok .decodeS ∧ decodeTableWord 8 0b00000110 = some (.decodeS 0 0 []) := by
  decide

/-- R58: the 253 other words, by the reason. -/
theorem test_decode_illegal :
    decodeWord 0b00000000#8 = .error .reservedOp ∧ decodeWord 0b00000011#8 = .error .reservedOp ∧
      decodeWord 0b00000111#8 = .error .reservedOp ∧ decodeWord 0b00000100#8 = .error .reservedOp ∧
      decodeWord 0b00000101#8 = .error .strictEncode ∧ decodeWord 0b00001001#8 = .error .reservedBits ∧
      decodeWord 0b10000010#8 = .error .reservedBits ∧ decodeTableWord 8 0b00000101 = none := by
  decide

/-- The three rows cover exactly three of the 256 words, and no word has two meanings (R57). -/
theorem test_decode_three :
    ((List.range 256).filter (fun w => (decodeTableWord 8 w).isSome)) = [1, 2, 6] := by decide

/-! ### The lookup memory (R70, R72, R73) and the group functions (95_test_vectors.md, sections 1 to 5) -/

theorem test_lookup :
    fwd 43 = 0x48#8 ∧ fwd 84 = 0x23#8 ∧ invLookup 0x48#8 = .inRange 0xAB#8 ∧
      invLookup 31#8 = .outOfRange ∧ invLookup 32#8 = .inRange 0x00#8 ∧
      invLookup 127#8 = .inRange 0x00#8 ∧ invLookup 128#8 = .outOfRange ∧
      digitOf 0x7E#8 = some 0 ∧ isZ85 0x7E#8 = false ∧ isZ85 0x30#8 = true := by decide

theorem test_encGroup :
    encGroup 0x864FD26F#32 = [0x48#8, 0x65#8, 0x6C#8, 0x6C#8, 0x6F#8] ∧
      encGroup 0xFFFFFFFF#32 = [0x25#8, 0x6E#8, 0x53#8, 0x63#8, 0x30#8] ∧
      encGroup 0#32 = [0x30#8, 0x30#8, 0x30#8, 0x30#8, 0x30#8] := by decide

/-- R103: the wrap of `%nSc1`, `%nSd0` and `#####`, and an unmapped code in range. -/
theorem test_decGroup :
    decGroup 0x25#8 0x6E#8 0x53#8 0x63#8 0x31#8 = some [0x00#8, 0x00#8, 0x00#8, 0x00#8] ∧
      decGroup 0x25#8 0x6E#8 0x53#8 0x64#8 0x30#8 = some [0x00#8, 0x00#8, 0x00#8, 0x54#8] ∧
      decGroup 0x23#8 0x23#8 0x23#8 0x23#8 0x23#8 = some [0x08#8, 0x78#8, 0x0E#8, 0xC4#8] ∧
      decGroup 0x20#8 0x30#8 0x30#8 0x30#8 0x30#8 = some [0x00#8, 0x00#8, 0x00#8, 0x00#8] ∧
      decGroup 0x30#8 0x30#8 0x30#8 0x30#8 0x80#8 = none := by decide

/-- The codes of R14 and R61 that a response and a unit show. -/
theorem test_codes : Status.errCmd.code = 4#3 ∧ UnitSt.fault.code = 0b10#2 := by decide

/-! ### Each instruction, one step each -/

/-- R81's example: LEN = 8 and GRANT leave the unit in RUN at the start of the command. -/
theorem test_encode_starts :
    regsOf enc0 (exec (.encode 1 8 w1Bytes) (answering [(1, .grant)])) =
      some { UnitRegs.reset with st := .run, tid := 1, cmd := 0x01#8, n := 8 } := by decide

/-- W7 and P3: LEN = 3 is ERR_LENGTH with INFO = 3, and a denied buffer is ERR_ALLOC with INFO = 5. -/
theorem test_encode_errors :
    answer (exec (.encode 1 3 [0x01#8, 0x02#8, 0x03#8]) State.reset) =
        some { tid := 1, status := .errLength, outLen := 0, info := 3 } ∧
      answer (exec (.encode 5 4 [0x00#8, 0x00#8, 0x00#8, 0x00#8]) (answering [(5, .deny)])) =
        some { tid := 5, status := .errAlloc, outLen := 0, info := 5 } := by decide

/-- P3: the permissive decode of `0000` and 0x00 is accepted, and LEN = 6 is ERR_LENGTH with INFO = 1. -/
theorem test_decode_accepts :
    (regsOf dec0 (exec (.decode 7 5 [0x30#8, 0x30#8, 0x30#8, 0x30#8, 0x00#8])
        (answering [(7, .grant)]))).map (fun r => (r.st, r.n)) = some (.run, 5) ∧
      answer (exec (.decode 2 6 [0x30#8, 0x30#8, 0x30#8, 0x30#8, 0x30#8, 0x30#8]) State.reset) =
        some { tid := 2, status := .errLength, outLen := 0, info := 1 } := by decide

/-- Trace T4: the step that reads 0x80 at ip = 9. -/
theorem test_decode_faults :
    after (step (block (.unit dec0) Lane.reset decBad)) =
      some { block (.unit dec0) Lane.reset decFaulted with turns := [] } := by decide

/-- R96's example, `Hello Worl`, is ERR_CHAR with INFO = 5; `#####` is accepted. -/
theorem test_decodeS_scans :
    answer (exec (.decodeS 3 10
        [0x48#8, 0x65#8, 0x6C#8, 0x6C#8, 0x6F#8, 0x20#8, 0x57#8, 0x6F#8, 0x72#8, 0x6C#8]) State.reset) =
        some { tid := 3, status := .errChar, outLen := 0, info := 5 } ∧
      (regsOf dec0 (exec (.decodeS 3 5 [0x23#8, 0x23#8, 0x23#8, 0x23#8, 0x23#8])
        (answering [(3, .grant)]))).map (fun r => (r.st, r.cmd)) = some (.run, 0x06#8) := by decide

/-- W3: the empty command is OK at once; and R119: its length is checked before its characters. -/
theorem test_decodeS_order :
    answer (exec (.decodeS 5 0 []) (answering [(5, .deny)])) =
        some { tid := 5, status := .ok, outLen := 0, info := 0 } ∧
      answer (exec (.decodeS 5 6 [0x20#8, 0x20#8, 0x20#8, 0x20#8, 0x20#8, 0x20#8]) State.reset) =
        some { tid := 5, status := .errLength, outLen := 0, info := 1 } := by decide

/-- R82's example: 0x864F and 0xD2 give 0x864FD2. R98's: 43 and `e` give 3669. -/
theorem test_acc :
    regsOf enc0 (step (block (.unit enc0)
        { encFull with regs := { encFull.regs with ip := 2, ph := 2#3, acc := 0x864F#32 } } Lane.reset)) =
        some { encFull.regs with ip := 3, ph := 3#3, acc := 0x864FD2#32 } ∧
      regsOf dec0 (step (block (.unit dec0) Lane.reset decOne)) =
        some { decOne.regs with ip := 2, ph := 2#3, acc := 3669#32 } := by decide

/-- R83's example writes `Hello`; R99's writes 86 4F D2 6F. -/
theorem test_emit :
    (after (step (block (.unit enc0) encFull Lane.reset))).map (fun s => s.enc.map (fun l => l.out)) =
        some [Memory.ofBytes 10 (w1Text.take 5)] ∧
      (after (step (block (.unit dec0) Lane.reset decFull))).map (fun s => s.dec.map (fun l => l.out)) =
        some [Memory.ofBytes 8 (w1Bytes.take 4)] := by decide

/-- R84's and R100's examples: OUT_LEN = 10 and OUT_LEN = 8. -/
theorem test_done :
    answer (step (block (.unit enc0) encLast Lane.reset)) =
        some { tid := 1, status := .ok, outLen := 10, info := 0 } ∧
      answer (step (block (.unit dec0) Lane.reset decLast)) =
        some { tid := 2, status := .ok, outLen := 8, info := 0 } := by decide

/-- The canonical form: a write keeps the addresses rising and in the space, and one outside it faults. -/
theorem test_memory :
    (Memory.fresh 2).write 2 0x00#8 = .error (.outAbsent 2) ∧
      ((Memory.ofBytes 3 [0x01#8, 0x02#8]).writeAll 1 [0x05#8, 0x06#8]) =
        .ok (Memory.ofBytes 3 [0x01#8, 0x05#8, 0x06#8]) ∧
      ({ size := 3, cells := [(1, 0x00#8), (0, 0x00#8)] } : Memory).wf = false ∧
      ({ size := 1, cells := [(1, 0x00#8)] } : Memory).wf = false ∧
      ∀ l ∈ State.reset.enc ++ State.reset.dec, l.inp.wf = true ∧ l.out.wf = true := by decide

/-! ### Witnesses: for every obligation with hypotheses, a state and operands that meet them -/

theorem next_of_after {o : Outcome} {t : State} (h : after o = some t) : o = .next t := by
  cases o with
  | next s => cases h; rfl
  | fault f => cases h
  | refused r => cases h

/-- The block after reset, in which the host does `a` next. -/
def hostTurn (a : HostAct) : State := { State.reset with script := [a], turns := [.host] }

theorem illegal_words : ¬ LegalWord 0x00#8 ∧ ¬ LegalWord 0x05#8 ∧ ¬ LegalWord 0x81#8 ∧ ¬ LegalWord 0xFF#8 := by
  unfold LegalWord
  decide

/-- A word of each illegal class, issued or posted. -/
theorem witness_IllegalCommandAnswered :
    (hostTurn (.issue ⟨3, 0x05#8, 4, [0x00#8, 0x00#8, 0x00#8, 0x00#8]⟩)).turns = .host :: [] ∧
      (hostTurn (.issue ⟨3, 0x05#8, 4, [0x00#8, 0x00#8, 0x00#8, 0x00#8]⟩)).script =
        .issue ⟨3, 0x05#8, 4, [0x00#8, 0x00#8, 0x00#8, 0x00#8]⟩ :: [] ∧
      (hostTurn (.post ⟨4, 0x00#8, 0, []⟩)).script = .post ⟨4, 0x00#8, 0, []⟩ :: [] ∧
      ¬ LegalWord 0x05#8 ∧ ¬ LegalWord 0x00#8 ∧ ¬ LegalWord 0x81#8 :=
  ⟨rfl, rfl, rfl, illegal_words.2.1, illegal_words.1, illegal_words.2.2.1⟩

theorem witness_StepRunsDecoded :
    (hostTurn (.issue ⟨1, 0x01#8, 0, []⟩)).turns = .host :: [] ∧
      (hostTurn (.issue ⟨1, 0x01#8, 0, []⟩)).script = .issue ⟨1, 0x01#8, 0, []⟩ :: [] ∧
      decode ⟨1, 0x01#8, 0, []⟩ = .ok (.encode 1 0 []) ∧
      decode ⟨1, 0x02#8, 1, [0x30#8]⟩ = .ok (.decode 1 1 [0x30#8]) ∧
      decode ⟨1, 0x06#8, 0, []⟩ = .ok (.decodeS 1 0 []) := by decide

theorem witness_StepRunsTableWord :
    decodeTableWord 8 0x01 = some (.encode 0 0 []) ∧ decodeTableWord 8 0x02 = some (.decode 0 0 []) ∧
      decodeTableWord 8 0x06 = some (.decodeS 0 0 []) := by decide

theorem witness_PostedCommandIsHeld :
    (hostTurn (.post (encode (.decode 2 0 [])))).turns = .host :: [] ∧
      (hostTurn (.post (encode (.decode 2 0 [])))).script = .post (encode (.decode 2 0 [])) :: [] := by
  decide

/-- A held DECODE with an IDLE decoder, and one with every decoder in FAULT. -/
theorem witness_HeldCommandHandedOver :
    (let s := { block (.dispatcher 0) Lane.reset Lane.reset with held := busy.held }
     s.turns = .dispatcher 0 :: [] ∧ s.held[0]? = busy.held[0]? ∧ s.idleUnits .dec ≠ []) ∧
    (let s := { block (.dispatcher 0) Lane.reset decFaulted with held := busy.held }
     s.turns = .dispatcher 0 :: [] ∧ s.held[0]? = busy.held[0]? ∧ s.idleUnits .dec = []) ∧
    (busy.held[0]?.map decode) =
      some (.ok (.decode 8 5 [0x30#8, 0x30#8, 0x30#8, 0x30#8, 0x30#8])) := by decide

/-- Power-up, and a block whose one decoder is in FAULT. -/
theorem witness_QuietBlockStays :
    State.reset.turns = [] ∧ enabledAgents State.reset = [] ∧
      enabledAgents { block .host Lane.reset decFaulted with turns := [] } = [] := by decide

/-- Both ends of the alphabet, and equal digits. -/
theorem witness_RomProperties :
    fwd 0 = fwd 0 ∧ isZ85 0x30#8 = true ∧ isZ85 0x23#8 = true ∧ validField (inv 0) = false ∧
      validField (inv 95) = false := by decide

/-- The first and the last code in range, and the codes just outside. -/
theorem witness_LookupByCode :
    (31#8).toNat < 32 ∧ 127 < (128#8).toNat ∧ 0x23#8 = fwd 84 ∧ 0x30#8 = fwd 0 ∧
      (32 ≤ (32#8).toNat ∧ (32#8).toNat ≤ 127 ∧ ∀ d : Fin 85, 32#8 ≠ fwd d) ∧
      (32 ≤ (127#8).toNat ∧ (127#8).toNat ≤ 127 ∧ ∀ d : Fin 85, 127#8 ≠ fwd d) := by decide

theorem witness_EncGroupDigits : encGroup 0xFFFFFFFF#32 = encGroup 0xFFFFFFFF#32 := rfl

/-- The groups `%nSc0` and `%nSc1`, the last value that does not wrap and the first that does. -/
theorem witness_DecoderGroupWraps :
    digitOf 0x25#8 = some 82 ∧ digitOf 0x6E#8 = some 23 ∧ digitOf 0x53#8 = some 54 ∧
      digitOf 0x63#8 = some 12 ∧ digitOf 0x30#8 = some 0 ∧ digitOf 0x31#8 = some 1 ∧
      decVal 0x25#8 0x6E#8 0x53#8 0x63#8 0x30#8 = some 4294967295 ∧
      decVal 0x25#8 0x6E#8 0x53#8 0x63#8 0x31#8 = some 4294967296 := by decide

/-- `%nSc0` is canonical. -/
theorem witness_CanonicalGroupsAreImages : CanonicalGroup 0x25#8 0x6E#8 0x53#8 0x63#8 0x30#8 :=
  ⟨by decide, 4294967295, by decide, by decide⟩

theorem witness_RoundTripBytes : w1Bytes.length = 8 ∧ 8 % 4 = 0 ∧ ([] : List Byte).length = 0 := by
  decide

/-- `HelloWorld`, which is canonical, and `%nSc1`, which is not. -/
theorem witness_RoundTripTextIffCanonical :
    w1Text.length = 10 ∧ z85dec .strict 10 w1Text .grant = .answer .ok 8 0 w1Bytes ∧
      z85dec .perm 5 [0x25#8, 0x6E#8, 0x53#8, 0x63#8, 0x31#8] .grant =
        .answer .ok 4 0 [0x00#8, 0x00#8, 0x00#8, 0x00#8] := by decide

theorem witness_EncodeLengthAndAlphabet :
    w1Bytes.length = 8 ∧ 8 % 4 = 0 ∧ z85enc 8 w1Bytes .grant = .answer .ok 10 0 w1Text ∧
      z85enc 0 [] .grant = .answer .ok 0 0 [] := by decide

theorem witness_OutputLength :
    lenOk .enc 0 = true ∧ lenOk .enc 4 = true ∧ lenOk .dec 0 = true ∧ lenOk .dec 5 = true := by decide

/-! #### Dispatch and ACCEPT -/

/-- An IDLE unit, the pick and each clause: LEN 3, LEN 0, and LEN 4 denied and granted. -/
theorem witness_EncodeAccepts :
    (answering [(1, .deny)]).idleUnits .enc = 0 :: [] ∧
      pickUnit 0 [] (answering [(1, .deny)]) = (0, answering [(1, .deny)]) ∧ 3 % 4 ≠ 0 ∧ 4 % 4 = 0 ∧
      allocate 1 (answering [(1, .deny)]) = (.deny, answering []) ∧
      (answering [(1, .grant)]).idleUnits .enc = 0 :: [] ∧
      pickUnit 0 [] (answering [(1, .grant)]) = (0, answering [(1, .grant)]) ∧
      allocate 1 (answering [(1, .grant)]) = (.grant, answering []) := by decide

theorem witness_DecodeAccepts :
    (answering [(1, .deny)]).idleUnits .dec = 0 :: [] ∧
      pickUnit 0 [] (answering [(1, .deny)]) = (0, answering [(1, .deny)]) ∧ 6 % 5 ≠ 0 ∧ 5 % 5 = 0 ∧
      allocate 1 (answering [(1, .deny)]) = (.deny, answering []) ∧
      (answering [(1, .grant)]).idleUnits .dec = 0 :: [] ∧
      pickUnit 0 [] (answering [(1, .grant)]) = (0, answering [(1, .grant)]) ∧
      allocate 1 (answering [(1, .grant)]) = (.grant, answering []) := by decide

/-- The same for DECODE.S, with a bad first character, a bad last one, and a clean text. -/
theorem witness_DecodeStrictAccepts :
    (answering [(1, .deny)]).idleUnits .dec = 0 :: [] ∧
      pickUnit 0 [] (answering [(1, .deny)]) = (0, answering [(1, .deny)]) ∧
      allocate 1 (answering [(1, .deny)]) = (.deny, answering []) ∧
      allocate 1 (answering [(1, .grant)]) = (.grant, answering []) ∧
      [0x30#8].length = 1 ∧ 1 % 5 ≠ 0 ∧ ([] : List Byte).length = 0 ∧
      w1Text.length = 10 ∧ 10 % 5 = 0 ∧ (∀ c ∈ w1Text, isZ85 c = true) ∧
      t4Text.length = 10 ∧ t4Text[9]? = some 0x80#8 ∧ isZ85 0x80#8 = false ∧
      (∀ c ∈ t4Text.take 9, isZ85 c = true) ∧ isZ85 0x20#8 = false := by decide

theorem witness_HeldWhenNoUnitIdle :
    busy.idleUnits (unitKind (.encode 2 0 [])) = [] ∧
      busy.idleUnits (unitKind (.decode 2 0 [])) = [] ∧
      busy.idleUnits (unitKind (.decodeS 2 0 [])) = [] := by decide

/-- Two IDLE encoders beside a running one, and the pick of the second. -/
def three : State := { State.reset with enc := [Lane.reset, encMid, Lane.reset], picks := [1] }

theorem witness_EveryIdleUnitCanBePicked :
    three.idleUnits .enc = 0 :: [2] ∧ pickUnit 0 [2] three = (2, { three with picks := [] }) ∧
      three.lane? ⟨.enc, 2⟩ = some Lane.reset ∧ three.lane? enc0 = some Lane.reset := by decide

theorem witness_AllocationAnswer :
    (∀ p ∈ [((2 : Nat), Alloc.deny)], p.1 ≠ 1) ∧
      (answering [(2, .deny), (1, .grant), (1, .deny)]).answers =
        [(2, .deny)] ++ (1, .grant) :: [(1, .deny)] ∧
      (answering [(2, .deny)]).answers = [(2, .deny)] := by decide

/-- An instruction that starts its unit, and one that is answered at once. -/
theorem witness_InstructionFrame :
    (answering [(1, .grant)]).idleUnits (unitKind (.encode 1 8 w1Bytes)) = 0 :: [] ∧
      pickUnit 0 [] (answering [(1, .grant)]) = (0, answering [(1, .grant)]) ∧
      (after (exec (.encode 1 8 w1Bytes) (answering [(1, .grant)]))).isSome = true ∧
      (after (exec (.encode 1 3 []) (answering [(1, .grant)]))).isSome = true ∧
      three.idleUnits (unitKind (.encode 1 0 [])) = 0 :: [2] ∧
      (after (exec (.encode 1 0 []) three)).isSome = true := by decide

/-! #### The units' steps -/

theorem witness_EncoderAccStep :
    (block (.unit enc0) encMid Lane.reset).turns = .unit ⟨.enc, 0⟩ :: [] ∧
      (block (.unit enc0) encMid Lane.reset).enc[0]? = some encMid ∧ encMid.regs.st = .run ∧
      encMid.regs.ph.toNat < 4 ∧ encMid.regs.ip < encMid.regs.n ∧
      encMid.inp.read encMid.regs.ip = some 0x59#8 ∧ encMid.regs.acc.toNat < 256 ^ encMid.regs.ph.toNat := by
  decide

theorem witness_EncoderEmitStep :
    (block (.unit enc0) encFull Lane.reset).turns = .unit ⟨.enc, 0⟩ :: [] ∧
      (block (.unit enc0) encFull Lane.reset).enc[0]? = some encFull ∧ encFull.regs.st = .run ∧
      encFull.regs.ph.toNat = 4 ∧ encFull.regs.opos + 5 ≤ encFull.out.size ∧ encFull.out.wf = true := by decide

theorem witness_EncoderDoneStep :
    (block (.unit enc0) encLast Lane.reset).turns = .unit ⟨.enc, 0⟩ :: [] ∧
      (block (.unit enc0) encLast Lane.reset).enc[0]? = some encLast ∧ encLast.regs.st = .run ∧
      encLast.regs.ph.toNat = 0 ∧ encLast.regs.ip = encLast.regs.n := by decide

/-- A code in range, and a code out of it; 32, 127, 31 and 128 are the boundary values. -/
theorem witness_DecoderAccStep :
    (block (.unit dec0) Lane.reset decOne).turns = .unit ⟨.dec, 0⟩ :: [] ∧
      (block (.unit dec0) Lane.reset decOne).dec[0]? = some decOne ∧ decOne.regs.st = .run ∧
      decOne.regs.ph.toNat < 5 ∧ decOne.regs.ip < decOne.regs.n ∧
      decOne.inp.read decOne.regs.ip = some 0x65#8 ∧ 32 ≤ (0x65#8).toNat ∧ (0x65#8).toNat ≤ 127 ∧
      (block (.unit dec0) Lane.reset decBad).turns = .unit ⟨.dec, 0⟩ :: [] ∧
      (block (.unit dec0) Lane.reset decBad).dec[0]? = some decBad ∧ decBad.regs.st = .run ∧
      decBad.regs.ph.toNat < 5 ∧ decBad.regs.ip < decBad.regs.n ∧
      decBad.inp.read decBad.regs.ip = some 0x80#8 ∧ ((0x80#8).toNat < 32 ∨ 127 < (0x80#8).toNat) ∧
      32 ≤ (32#8).toNat ∧ (127#8).toNat ≤ 127 ∧ (31#8).toNat < 32 := by
  decide

theorem witness_DecoderEmitStep :
    (block (.unit dec0) Lane.reset decFull).turns = .unit ⟨.dec, 0⟩ :: [] ∧
      (block (.unit dec0) Lane.reset decFull).dec[0]? = some decFull ∧ decFull.regs.st = .run ∧
      decFull.regs.ph.toNat = 5 ∧ decFull.regs.opos + 4 ≤ decFull.out.size ∧ decFull.out.wf = true := by decide

theorem witness_DecoderDoneStep :
    (block (.unit dec0) Lane.reset decLast).turns = .unit ⟨.dec, 0⟩ :: [] ∧
      (block (.unit dec0) Lane.reset decLast).dec[0]? = some decLast ∧ decLast.regs.st = .run ∧
      decLast.regs.ph.toNat = 0 ∧ decLast.regs.ip = decLast.regs.n := by decide

/-- A faulted decoder and an IDLE encoder. -/
theorem witness_FaultedOrIdleUnitHasNoStep :
    (block (.unit dec0) Lane.reset decFaulted).turns = .unit dec0 :: [] ∧
      (block (.unit dec0) Lane.reset decFaulted).lane? dec0 = some decFaulted ∧
      decFaulted.regs.st ≠ .run ∧ (block (.unit enc0) Lane.reset decFaulted).lane? enc0 = some Lane.reset ∧
      Lane.reset.regs.st ≠ .run := by decide

/-! #### Rules about every step -/

/-- `busy` after its next step, an ACC step of the encoder (trace T1, row 7). -/
def busyNext : State :=
  { busy with turns := [], enc := [encMid.accumulated 0xB559#32] }

theorem busy_step : step busy = .next busyNext := next_of_after (by decide)

theorem busy_noReset : ¬ ResetTurn busy := by
  rintro ⟨h, -⟩
  exact absurd h (by decide)

/-- A faulted block that the host resets next. -/
def resetting : State := { block .host encMid decFaulted with script := [.reset], held := busy.held }

theorem witness_UnitStateTransitions :
    step busy = .next busyNext ∧ busy.lane? enc0 = some encMid ∧ busy.lane? dec0 = some decFaulted ∧
      step resetting = .next { resetting with
        script := [], turns := [], held := [], enc := [Lane.reset], dec := [Lane.reset] } ∧
      resetting.lane? dec0 = some decFaulted ∧ ResetTurn resetting :=
  ⟨busy_step, rfl, rfl, next_of_after (by decide), rfl, by decide, rfl⟩

theorem witness_FaultIsSticky :
    step busy = .next busyNext ∧ busy.lane? dec0 = some decFaulted ∧ decFaulted.regs.st = .fault ∧
      ¬ ResetTurn busy := ⟨busy_step, rfl, rfl, busy_noReset⟩

theorem witness_LatchedFieldsKept :
    step busy = .next busyNext ∧ ¬ ResetTurn busy ∧ busy.lane? enc0 = some encMid ∧
      busyNext.lane? enc0 = some (encMid.accumulated 0xB559#32) ∧
      ¬ (encMid.regs.st = .idle ∧ (encMid.accumulated 0xB559#32).regs.st = .run) :=
  ⟨busy_step, busy_noReset, rfl, rfl, by decide⟩

theorem witness_FaultRecordKept :
    step busy = .next busyNext ∧ ¬ ResetTurn busy ∧ busy.lane? dec0 = some decFaulted ∧
      busyNext.lane? dec0 = some decFaulted ∧
      ¬ (decFaulted.regs.st = .run ∧ decFaulted.regs.st = .fault) :=
  ⟨busy_step, busy_noReset, rfl, rfl, by decide⟩

theorem witness_UnitTurnTouchesNoOther :
    step busy = .next busyNext ∧ (chooseAgent busy).1 = some (.unit enc0) ∧ dec0 ≠ enc0 :=
  ⟨busy_step, by decide, by decide⟩

/-- Two running units; the decoder has the turn. -/
def both : State := block (.unit dec0) encMid decOne

theorem witness_RunningUnitUndisturbed :
    step both = .next { both with turns := [], dec := [decOne.accumulated 3669#32] } ∧
      both.lane? enc0 = some encMid ∧ encMid.regs.st = .run ∧
      (chooseAgent both).1 ≠ some (.unit enc0) ∧ ¬ ResetTurn both :=
  ⟨next_of_after (by decide), rfl, rfl, by decide, fun h => absurd h.1 (by decide)⟩

/-- An ACC step and an EMIT step. -/
theorem witness_SequencingAdvances :
    step busy = .next busyNext ∧ (chooseAgent busy).1 = some (.unit enc0) ∧
      busy.lane? enc0 = some encMid ∧ busyNext.lane? enc0 = some (encMid.accumulated 0xB559#32) ∧
      encMid.regs.st = .run ∧ (encMid.accumulated 0xB559#32).regs.st = .run ∧
      (after (step (block (.unit enc0) encFull Lane.reset))).isSome = true :=
  ⟨busy_step, by decide, rfl, rfl, rfl, rfl, by decide⟩

/-- An encoder before its DONE step, and a held command whose length the decoder will refuse. -/
def shortHeld : State :=
  { block (.dispatcher 0) encLast Lane.reset with
    turns := [.dispatcher 0, .unit enc0], held := [{ tid := 8, cmd := 0x02#8, len := 6, input := [] }] }

/-- A step with no response, one of the dispatcher's, one of an ACCEPT step, one
of a DONE step, and one of a held command. -/
theorem witness_EveryResponseHasACommand :
    step busy = .next busyNext ∧ (after (step (hostTurn (.issue ⟨1, 0x05#8, 0, []⟩)))).isSome = true ∧
      (after (step (hostTurn (.issue ⟨1, 0x01#8, 3, []⟩)))).isSome = true ∧
      (after (step (block (.unit enc0) encLast Lane.reset))).isSome = true ∧
      (after (step shortHeld)).isSome = true :=
  ⟨busy_step, by decide, by decide, by decide, by decide⟩

/-! #### Reset and the host -/

theorem witness_ResetStep : resetting.turns = .host :: [] ∧ resetting.script = .reset :: [] :=
  ⟨rfl, rfl⟩

theorem witness_StatusRead :
    (hostTurn (.readStatus dec0)).turns = .host :: [] ∧
      (hostTurn (.readStatus dec0)).script = .readStatus dec0 :: [] ∧
      (hostTurn (.readStatus dec0)).lane? dec0 = some Lane.reset := ⟨rfl, rfl, rfl⟩

/-- Command 7 has its response in `busy`; command 9 has none. -/
def waiting (t : Nat) : State := { busy with turns := [.host], script := [.wait t] }

theorem witness_WaitHoldsTheHost :
    (waiting 9).turns = .host :: [] ∧ (waiting 9).script = .wait 9 :: [] ∧
      (∀ d ∈ (waiting 9).responses, d.resp.tid ≠ 9) ∧ (waiting 7).script = .wait 7 :: [] ∧
      (∃ d ∈ (waiting 7).responses, d.resp.tid = 7) ∧ (∀ c ∈ (waiting 7).held, c.tid ≠ 7) ∧
      (∀ l ∈ (waiting 7).enc ++ (waiting 7).dec, l.regs.st = .idle ∨ l.regs.tid ≠ 7) := by decide

theorem witness_UnfinishedIsNotFinal :
    (∃ u l, busy.lane? u = some l ∧ l.regs.st ≠ .idle) ∧ busy.held ≠ [] :=
  ⟨⟨dec0, decFaulted, rfl, by decide⟩, by decide⟩

/-! #### The invariants: they hold of `busy`, whose encoder runs and whose decoder has faulted -/

theorem encMid_running : Running .enc encMid := by
  constructor <;> decide

theorem decFaulted_running : Running .dec decFaulted := by
  constructor <;> decide

theorem encMid_inv : LaneInv .enc encMid :=
  ⟨encMid_running, by decide, rfl, rfl, rfl, fun h => absurd h (by decide)⟩

theorem decFaulted_inv : LaneInv .dec decFaulted :=
  ⟨decFaulted_running, rfl, rfl, rfl, by decide, by decide, 0x80#8, by decide, rfl, by decide⟩

theorem okDelivery_inv : DeliveryInv
    { resp := { tid := 7, status := .ok, outLen := 5, info := 0 },
      out := Memory.ofBytes 5 (w1Text.take 5) } :=
  ⟨rfl, rfl, by decide, by decide⟩

theorem witness_BlockInv : BlockInv busy where
  has_enc := by decide
  has_dec := by decide
  enc_inv := by intro l hl; rw [List.mem_singleton.mp hl]; exact encMid_inv
  dec_inv := by intro l hl; rw [List.mem_singleton.mp hl]; exact decFaulted_inv
  responses_inv := by intro d hd; rw [List.mem_singleton.mp hd]; exact okDelivery_inv
  held_legal := by intro c hc; rw [List.mem_singleton.mp hc]; exact .inr (.inl rfl)

theorem witness_StepKeepsBlockInv : BlockInv busy ∧ step busy = .next busyNext :=
  ⟨witness_BlockInv, busy_step⟩

theorem witness_OutputRead :
    BlockInv busy ∧ (⟨⟨7, .ok, 5, 0⟩, Memory.ofBytes 5 (w1Text.take 5)⟩ : Delivery) ∈ busy.responses :=
  ⟨witness_BlockInv, by decide⟩

theorem witness_OneStepEnabledInRun :
    BlockInv busy ∧ busy.lane? enc0 = some encMid ∧ encMid.regs.st = .run :=
  ⟨witness_BlockInv, rfl, rfl⟩

theorem witness_StepNeverStops : BlockInv busy ∧ Supplied busy :=
  ⟨witness_BlockInv, ⟨fun _ h => absurd h (by simp [busy, block, State.reset]), by decide, by decide⟩⟩

theorem witness_EveryTurnProgresses :
    BlockInv busy ∧ step busy = .next busyNext ∧ (chooseAgent busy).1 = some (.unit enc0) ∧
      busy.lane? enc0 = some encMid ∧ encMid.regs.st = .run ∧
      busyNext.lane? enc0 = some (encMid.accumulated 0xB559#32) :=
  ⟨witness_BlockInv, busy_step, by decide, rfl, rfl, rfl⟩

/-- The invariant holds in the states of the DONE and ACC witnesses too. -/
theorem block_inv {a : Agent} {e d : Lane} (he : LaneInv .enc e) (hd : LaneInv .dec d) :
    BlockInv (block a e d) where
  has_enc := List.cons_ne_nil _ _
  has_dec := List.cons_ne_nil _ _
  enc_inv := by intro l hl; rw [List.mem_singleton.mp hl]; exact he
  dec_inv := by intro l hl; rw [List.mem_singleton.mp hl]; exact hd
  responses_inv := by intro d hd; cases hd
  held_legal := by intro c hc; cases hc

theorem idle_inv (k : UnitKind) : LaneInv k Lane.reset := ⟨rfl, rfl, rfl, rfl, rfl, rfl⟩

theorem encLast_inv : LaneInv .enc encLast :=
  ⟨by constructor <;> decide, by decide, rfl, rfl, rfl, fun h => absurd h (by decide)⟩

theorem decLast_inv : LaneInv .dec decLast :=
  ⟨by constructor <;> decide, by decide, .inl rfl, rfl, rfl, fun h => absurd h (by decide)⟩

theorem decBad_inv : LaneInv .dec decBad :=
  ⟨by constructor <;> decide, by decide, .inl rfl, rfl, rfl, fun h => absurd h (by decide)⟩

theorem witness_UnitSteps_invariant :
    BlockInv (block (.unit enc0) encLast Lane.reset) ∧ BlockInv (block (.unit dec0) Lane.reset decLast) ∧
      BlockInv (block (.unit dec0) Lane.reset decBad) :=
  ⟨block_inv encLast_inv (idle_inv .dec), block_inv (idle_inv .enc) decLast_inv,
    block_inv (idle_inv .enc) decBad_inv⟩

/-! #### Whole runs -/

/-- A host that grants command 1, in a block where unit `u` has the next `m` turns. -/
def granted (u : UnitId) (m : Nat) : State :=
  { answering [(1, .grant)] with turns := List.replicate m (.unit u) ++ [.host] }

theorem witness_EncodeRunsToZ85enc :
    w1Bytes.length = 8 ∧ 8 % 4 = 0 ∧ 0 < 8 ∧ (granted enc0 11).idleUnits .enc = 0 :: [] ∧
      pickUnit 0 [] (granted enc0 11) = (0, granted enc0 11) ∧
      allocate 1 (granted enc0 11) = (.grant, { granted enc0 11 with answers := [] }) ∧
      (granted enc0 11).turns = List.replicate (8 + 8 / 4 + 1) (.unit ⟨.enc, 0⟩) ++ [.host] := by decide

theorem witness_DecodeRunsToZ85dec :
    w1Text.length = 10 ∧ 10 % 5 = 0 ∧ 0 < 10 ∧ (∀ c ∈ w1Text, inRange c = true) ∧
      (granted dec0 13).idleUnits .dec = 0 :: [] ∧
      pickUnit 0 [] (granted dec0 13) = (0, granted dec0 13) ∧
      allocate 1 (granted dec0 13) = (.grant, { granted dec0 13 with answers := [] }) ∧
      (granted dec0 13).turns = List.replicate (10 + 10 / 5 + 1) (.unit ⟨.dec, 0⟩) ++ [.host] := by
  decide

theorem witness_DecodeStrictRunsToZ85dec :
    w1Text.length = 10 ∧ 10 % 5 = 0 ∧ 0 < 10 ∧ (∀ c ∈ w1Text, isZ85 c = true) ∧
      (granted dec0 13).idleUnits .dec = 0 :: [] ∧
      pickUnit 0 [] (granted dec0 13) = (0, granted dec0 13) ∧
      allocate 1 (granted dec0 13) = (.grant, { granted dec0 13 with answers := [] }) ∧
      (granted dec0 13).turns = List.replicate (10 + 10 / 5 + 1) (.unit ⟨.dec, 0⟩) ++ [.host] := by
  decide

/-- The fault at the last index of trace T4, and at the first index of another text. -/
theorem witness_DecodeFaultsAtLeastIndex :
    t4Text.length = 10 ∧ 10 % 5 = 0 ∧ t4Text[9]? = some 0x80#8 ∧ inRange 0x80#8 = false ∧
      (∀ c ∈ t4Text.take 9, inRange c = true) ∧
      (0x1F#8 :: t4Text.drop 1)[0]? = some 0x1F#8 ∧ inRange 0x1F#8 = false ∧
      (granted dec0 11).idleUnits .dec = 0 :: [] ∧
      pickUnit 0 [] (granted dec0 11) = (0, granted dec0 11) ∧
      allocate 1 (granted dec0 11) = (.grant, { granted dec0 11 with answers := [] }) ∧
      (granted dec0 11).turns = List.replicate (9 + 9 / 5 + 1) (.unit ⟨.dec, 0⟩) ++ [.host] := by decide

/-- The execution from `shortHeld`: the held command is answered, the encoder ends its command, and then
no agent can move. -/
def shortRun : Nat → State
  | 0 => shortHeld
  | 1 => { block (.unit enc0) encLast Lane.reset with
           responses := [{ resp := { tid := 8, status := .errLength, outLen := 0, info := 1 },
                           out := .absent }] }
  | _ + 2 => { State.reset with
      enc := [{ Lane.reset with regs := { encLast.regs with st := .idle } }],
      responses := [{ resp := { tid := 8, status := .errLength, outLen := 0, info := 1 }, out := .absent },
                    { resp := { tid := 1, status := .ok, outLen := 10, info := 0 },
                      out := Memory.ofBytes 10 w1Text }] }

theorem shortRun_execution : Execution shortRun := by
  intro k
  match k with
  | 0 => rfl
  | 1 => rfl
  | _ + 2 => rfl

theorem shortRun_idle (k : Nat) (u : UnitId) : unitEnabled u (shortRun (k + 2)) = false := by
  obtain ⟨kind, i⟩ := u
  cases kind <;> cases i <;> rfl

theorem witness_FairExecutionsComplete :
    Execution shortRun ∧ WeaklyFair shortRun ∧ BlockInv (shortRun 0) ∧
      (shortRun 0).lane? enc0 = some encLast ∧ encLast.regs.st = .run ∧
      (shortRun 0).script = [] ∧ (∀ j u, (shortRun j).status u ≠ some .fault) := by
  refine ⟨shortRun_execution, ⟨fun u k h => ?_, fun c i u k _ _ h => ?_⟩, ?_, rfl, rfl, rfl, fun j => ?_⟩
  · have := h (k + 2) (by omega)
    rw [shortRun_idle] at this
    cases this
  · have := (h (k + 2) (by omega)).1
    cases this
  · constructor
    · decide
    · decide
    · intro l hl; rw [List.mem_singleton.mp hl]; exact encLast_inv
    · intro l hl; rw [List.mem_singleton.mp hl]; exact idle_inv .dec
    · intro d hd; cases hd
    · intro c hc; rw [List.mem_singleton.mp hc]; exact .inr (.inl rfl)
  · rintro ⟨kind, i⟩ h
    match j with
    | 0 => cases kind <;> cases i <;> cases h
    | 1 => cases kind <;> cases i <;> cases h
    | _ + 2 => cases kind <;> cases i <;> cases h

/-- A unit that has never run, and one that has finished another command. -/
def used : State :=
  { answering [(1, .grant)] with enc := [{ Lane.reset with regs := { encLast.regs with st := .idle } }] }

theorem witness_NoStateAcrossCommands :
    (answering [(1, .grant)]).idleUnits (unitKind (.encode 1 8 w1Bytes)) = [0] ∧
      used.idleUnits (unitKind (.encode 1 8 w1Bytes)) = [0] ∧
      (allocate (Instr.encode 1 8 w1Bytes).tid (answering [(1, .grant)])).1 = .grant ∧
      (allocate (Instr.encode 1 8 w1Bytes).tid used).1 = .grant ∧
      (after (exec (.encode 1 8 w1Bytes) (answering [(1, .grant)]))).isSome = true ∧
      (after (exec (.encode 1 8 w1Bytes) used)).isSome = true := by decide

end Sys2Proof.Tests
end

section
/-! PROOFS. What the state rules of the model need beside its laws: legal command words, the invariant of a unit case by case, what one step can make of one unit, and the frame of an instruction. -/

namespace Sys2Proof.Machine

/-! ### Command words (R57, R58) -/

/-- Only the encoding of an instruction decodes to it. -/
theorem eq_encode_of_decode {c : Command} {i : Instr} (h : decode c = .ok i) : c = encode i := by
  obtain ⟨tid, cmd, len, input⟩ := c
  unfold decode at h
  split at h
  · next o ho =>
    cases h
    rcases (decodeWord_ok_iff _ _).mp ho with ⟨rfl, h⟩ | ⟨rfl, h⟩ | ⟨rfl, h⟩ <;> (cases h; rfl)
  · cases h

@[simp] theorem decode_encode (i : Instr) : decode (encode i) = .ok i := by
  obtain ⟨o, ho, hi⟩ := decodeWord_encode i
  simp only [decode, show (encode i).cmd = opcode i from rfl, ho, hi]

theorem legalWord_opcode (i : Instr) : LegalWord (opcode i) := by
  cases i
  · exact .inl rfl
  · exact .inr (.inl rfl)
  · exact .inr (.inr rfl)

theorem legalWord_of_decode_ok {c : Command} {i : Instr} (h : decode c = .ok i) : LegalWord c.cmd :=
  eq_encode_of_decode h ▸ legalWord_opcode i

theorem not_legalWord_of_decode_error {c : Command} {e : IllegalWord} (h : decode c = .error e) :
    ¬ LegalWord c.cmd := by
  intro hw
  have legal : ∃ o, decodeWord c.cmd = .ok o := by
    rcases hw with h | h | h
    · exact ⟨.encode, (decodeWord_ok_iff _ _).mpr (.inl ⟨rfl, h⟩)⟩
    · exact ⟨.decode, (decodeWord_ok_iff _ _).mpr (.inr (.inl ⟨rfl, h⟩))⟩
    · exact ⟨.decodeS, (decodeWord_ok_iff _ _).mpr (.inr (.inr ⟨rfl, h⟩))⟩
  obtain ⟨o, ho⟩ := legal
  simp [decode, ho] at h

/-- The command word of an instruction is one that the unit running it latches (R54). -/
theorem wordOfKind_opcode (i : Instr) : WordOfKind (unitKind i) (opcode i) := by
  cases i
  · exact rfl
  · exact .inl rfl
  · exact .inr rfl

/-! ### The invariant of a unit, case by case -/

theorem laneInv_idle_iff {k : UnitKind} {l : Lane} (h : l.regs.st = .idle) :
    LaneInv k l ↔ l.regs.ph = 0#3 ∧ l.regs.acc = 0#32 ∧ l.regs.fkind = .noFault ∧
      l.regs.finfo = (0, 0x00#8) ∧ l.inp = .absent ∧ l.out = .absent := by
  simp only [LaneInv, h]

theorem laneInv_run_iff {k : UnitKind} {l : Lane} (h : l.regs.st = .run) :
    LaneInv k l ↔ Running k l ∧ 0 < l.regs.n ∧ WordOfKind k l.regs.cmd ∧ l.regs.fkind = .noFault ∧
      l.regs.finfo = (0, 0x00#8) ∧
      (l.regs.cmd = 0x06#8 → ∀ j < l.regs.n, ∃ b, l.inp.read j = some b ∧ isZ85 b = true) := by
  simp only [LaneInv, h]

theorem laneInv_fault_iff {k : UnitKind} {l : Lane} (h : l.regs.st = .fault) :
    LaneInv k l ↔ Running k l ∧ k = .dec ∧ l.regs.cmd = 0x02#8 ∧ l.regs.fkind = .undefinedLookup ∧
      l.regs.ph.toNat < 5 ∧ l.regs.ip < l.regs.n ∧
      ∃ c, l.inp.read l.regs.ip = some c ∧ l.regs.finfo = (l.regs.ip, c) ∧ inRange c = false := by
  simp only [LaneInv, h]

theorem laneInv_reset (k : UnitKind) : LaneInv k Lane.reset :=
  (laneInv_idle_iff rfl).mpr ⟨rfl, rfl, rfl, rfl, rfl, rfl⟩

/-- A command starts with the relations of R26, on a buffer of its output's length. The strict pre-scan
has seen every element of DECODE.S (R97, R98). -/
theorem LaneInv.start {l : Lane} {i : Instr} {n : Nat} (h : LaneInv (unitKind i) l)
    (hi : l.regs.st = .idle) (hv : verdictOf i = .ask n) :
    LaneInv (unitKind i) (l.start (encode i) n) := by
  obtain ⟨-, -, hfk, hfi, -, -⟩ := (laneInv_idle_iff hi).mp h
  have hc := verdictOf_cases i
  rw [hv] at hc
  cases hc with
  | ask hl hpos hs =>
    refine (laneInv_run_iff rfl).mpr
      ⟨Running.start l hl rfl, hpos, wordOfKind_opcode i, hfk, hfi, fun hw j hj => ?_⟩
    obtain ⟨b, hb, hz⟩ := scanFrom_clean (hs hw) j hj
    exact ⟨b, (Memory.read_ofBytes _ _ j).trans ((if_pos hj).trans hb), hz⟩

/-- An ACC step that adds an element keeps the invariant of the unit. -/
theorem LaneInv.accumulated {k : UnitKind} {l : Lane} {b : Byte} {a : U32} (h : LaneInv k l)
    (hp : phase k l.regs = .acc) (hb : l.inp.read l.regs.ip = some b)
    (ha : (k = .enc ∧ a = accByte l.regs.acc b) ∨
      (k = .dec ∧ ∃ d, digitOf b = some d ∧ a = accDigit l.regs.acc d)) :
    LaneInv k (l.accumulated a) := by
  obtain ⟨hst, hph, hip⟩ := (phase_cases k l.regs).1.mp hp
  obtain ⟨hR, hrest⟩ := (laneInv_run_iff hst).mp h
  refine (laneInv_run_iff ?_).mpr ⟨hR.accumulated hph hip hb ha, hrest⟩
  exact hst

/-- An EMIT step keeps the invariant of the unit. -/
theorem LaneInv.emitted {k : UnitKind} {l : Lane} {m : Memory} (h : LaneInv k l)
    (hp : phase k l.regs = .emit)
    (hm : l.out.writeAll l.regs.opos (emitBytes k l.regs.acc) = .ok m) :
    LaneInv k { l with
      out := m, regs := { l.regs with opos := l.regs.opos + groupOut k, acc := 0#32, ph := 0#3 } } := by
  obtain ⟨hst, hph⟩ := (phase_cases k l.regs).2.1.mp hp
  obtain ⟨hR, hrest⟩ := (laneInv_run_iff hst).mp h
  refine (laneInv_run_iff ?_).mpr ⟨hR.emitted hph hm, hrest⟩
  exact hst

/-- A decoder that meets a code without a digit runs DECODE: the pre-scan of DECODE.S let alphabet
characters pass only (R98, R115). -/
theorem LaneInv.raiseFault {l : Lane} {c : Byte} (h : LaneInv .dec l)
    (hp : phase .dec l.regs = .acc) (hc : l.inp.read l.regs.ip = some c) (hd : digitOf c = none) :
    LaneInv .dec (l.raiseFault c) := by
  obtain ⟨hst, hph, hip⟩ := (phase_cases .dec l.regs).1.mp hp
  obtain ⟨hR, -, hw, -, -, hz⟩ := (laneInv_run_iff hst).mp h
  have hr : inRange c = false := (digitOf_eq_none_iff c).mp hd
  have hcmd : l.regs.cmd = 0x02#8 := by
    refine hw.resolve_right fun h6 => ?_
    obtain ⟨b, hb, hbz⟩ := hz h6 _ hip
    rw [hc] at hb
    cases hb
    rw [inRange_of_isZ85 c hbz] at hr
    cases hr
  exact (laneInv_fault_iff rfl).mpr ⟨hR.raiseFault c, rfl, hcmd, rfl, hph, hip, c, hc, rfl, hr⟩

/-- The DONE step leaves nothing of the command in the unit (R24), since `ph` is 0 there. -/
theorem LaneInv.finished {k : UnitKind} {l : Lane} (h : LaneInv k l) (hp : phase k l.regs = .done) :
    LaneInv k { regs := { l.regs with st := .idle }, inp := .absent, out := .absent } := by
  obtain ⟨hst, hph, -⟩ := (phase_cases k l.regs).2.2.mp hp
  obtain ⟨hR, -, -, hfk, hfi, -⟩ := (laneInv_run_iff hst).mp h
  exact (laneInv_idle_iff rfl).mpr
    ⟨BitVec.eq_of_toNat_eq hph, hR.acc_zero hph, hfk, hfi, rfl, rfl⟩

/-! ### One unit over one step -/

/-- What a step that is no reset can make of a unit of kind `k`: the start of a command (R81, R97), an
ACC step, an EMIT step, the fault, the DONE step (R82 to R84, R98 to R100, R116), or nothing. -/
inductive LaneChange (k : UnitKind) (l : Lane) : Lane → Prop
  | same : LaneChange k l l
  | started (i : Instr) (n : Nat) (hi : l.regs.st = .idle) (hk : k = unitKind i)
      (hv : verdictOf i = .ask n) : LaneChange k l (l.start (encode i) n)
  | accumulated (b : Byte) (a : U32) (hp : phase k l.regs = .acc)
      (hb : l.inp.read l.regs.ip = some b)
      (ha : (k = .enc ∧ a = accByte l.regs.acc b) ∨
        (k = .dec ∧ ∃ d, digitOf b = some d ∧ a = accDigit l.regs.acc d)) :
      LaneChange k l (l.accumulated a)
  | emitted (m : Memory) (hp : phase k l.regs = .emit)
      (hm : l.out.writeAll l.regs.opos (emitBytes k l.regs.acc) = .ok m) :
      LaneChange k l { l with
        out := m, regs := { l.regs with opos := l.regs.opos + groupOut k, acc := 0#32, ph := 0#3 } }
  | faulted (c : Byte) (hp : phase k l.regs = .acc) (hk : k = .dec)
      (hc : l.inp.read l.regs.ip = some c) (hd : digitOf c = none) : LaneChange k l (l.raiseFault c)
  | finished (hp : phase k l.regs = .done) :
      LaneChange k l { regs := { l.regs with st := .idle }, inp := .absent, out := .absent }

/-- A unit with an enabled step is in RUN (R18). -/
theorem st_of_phase {k : UnitKind} {r : UnitRegs} {p : Phase} (h : phase k r = p) (hp : p ≠ .stuck) :
    r.st = .run := by
  by_contra hr
  exact hp (h.symm.trans (phase_stuck hr))

/-- Every step keeps each unit in its place: a reset resets it, any other step changes it as listed. -/
theorem step_laneChange {s t : State} (h : step s = .next t) {v : UnitId} {l : Lane}
    (hl : s.lane? v = some l) :
    (ResetTurn s ∧ t.lane? v = some Lane.reset) ∨
      ∃ l', t.lane? v = some l' ∧ LaneChange v.kind l l' := by
  cases step_lane h hl with
  | same h => exact .inr ⟨l, h, .same⟩
  | reset ha hs h => exact .inl ⟨⟨ha, hs⟩, h⟩
  | started c i n hc hd hi hk hv ha h => exact .inr ⟨_, h, .started i n hi hk hv⟩
  | moved l' ha hs h hr =>
    refine .inr ⟨l', h, ?_⟩
    rcases unitStep_moved_cases hs with
      ⟨hp, b, a, hb, rfl, ha⟩ | ⟨hp, m, hm, rfl⟩ | ⟨hp, hk, c, hc, hd, rfl⟩
    · exact .accumulated b a hp hb ha
    · exact .emitted m hp hm
    · exact .faulted c hp hk hc hd
  | done l' d ha hs h hr =>
    obtain ⟨hp, rfl, -⟩ := unitStep_done_cases hs
    exact .inr ⟨_, h, .finished hp⟩

/-- The change of a unit over a step that is no reset. -/
theorem laneChange_of_not_reset {s t : State} {v : UnitId} {l l' : Lane} (h : step s = .next t)
    (hn : ¬ ResetTurn s) (hl : s.lane? v = some l) (hl' : t.lane? v = some l') :
    LaneChange v.kind l l' := by
  rcases step_laneChange h hl with ⟨hr, -⟩ | ⟨l₁, h₁, hc⟩
  · exact absurd hr hn
  · rw [hl'] at h₁
    cases h₁
    exact hc

/-- Every change of a unit moves `st` as R19 lists. -/
theorem LaneChange.stMove {k : UnitKind} {l l' : Lane} (h : LaneChange k l l') :
    StMove k l.regs.st l'.regs.st := by
  cases h with
  | same => exact .inl rfl
  | started i n hi hk hv => exact .inr (.inl ⟨hi, rfl⟩)
  | accumulated b a hp hb ha => exact .inl rfl
  | emitted m hp hm => exact .inl rfl
  | faulted c hp hk hc hd => exact .inr (.inr (.inr ⟨hk, st_of_phase hp (by decide), rfl⟩))
  | finished hp => exact .inr (.inr (.inl ⟨st_of_phase hp (by decide), rfl⟩))

/-- Only an IDLE or a RUN unit changes. -/
theorem LaneChange.eq_of_fault {k : UnitKind} {l l' : Lane} (h : LaneChange k l l')
    (hf : l.regs.st = .fault) : l' = l := by
  have stuck : phase k l.regs = .stuck := phase_stuck (by simp [hf])
  cases h with
  | same => rfl
  | started i n hi hk hv => simp [hf] at hi
  | accumulated b a hp hb ha => simp [stuck] at hp
  | emitted m hp hm => simp [stuck] at hp
  | faulted c hp hk hc hd => simp [stuck] at hp
  | finished hp => simp [stuck] at hp

/-- Every change of a unit but the start of a command keeps the latched command (R20). -/
theorem LaneChange.latched {k : UnitKind} {l l' : Lane} (h : LaneChange k l l')
    (hs : ¬ (l.regs.st = .idle ∧ l'.regs.st = .run)) :
    l'.regs.cmd = l.regs.cmd ∧ l'.regs.n = l.regs.n ∧ l'.regs.tid = l.regs.tid := by
  cases h with
  | started i n hi hk hv => exact absurd ⟨hi, rfl⟩ hs
  | same => exact ⟨rfl, rfl, rfl⟩
  | accumulated b a hp hb ha => exact ⟨rfl, rfl, rfl⟩
  | emitted m hp hm => exact ⟨rfl, rfl, rfl⟩
  | faulted c hp hk hc hd => exact ⟨rfl, rfl, rfl⟩
  | finished hp => exact ⟨rfl, rfl, rfl⟩

/-- Every change of a unit but the fault keeps the fault record (R21). -/
theorem LaneChange.faultRecord {k : UnitKind} {l l' : Lane} (h : LaneChange k l l')
    (hs : ¬ (l.regs.st = .run ∧ l'.regs.st = .fault)) :
    l'.regs.fkind = l.regs.fkind ∧ l'.regs.finfo = l.regs.finfo := by
  cases h with
  | faulted c hp hk hc hd => exact absurd ⟨st_of_phase hp (by decide), rfl⟩ hs
  | same => exact ⟨rfl, rfl⟩
  | started i n hi hk hv => exact ⟨rfl, rfl⟩
  | accumulated b a hp hb ha => exact ⟨rfl, rfl⟩
  | emitted m hp hm => exact ⟨rfl, rfl⟩
  | finished hp => exact ⟨rfl, rfl⟩

/-- Every change of a unit keeps its invariant. -/
theorem LaneChange.keeps_laneInv {k : UnitKind} {l l' : Lane} (h : LaneChange k l l')
    (hi : LaneInv k l) : LaneInv k l' := by
  cases h with
  | same => exact hi
  | started i n hst hk hv => subst hk; exact hi.start hst hv
  | accumulated b a hp hb ha => exact hi.accumulated hp hb ha
  | emitted m hp hm => exact hi.emitted hp hm
  | faulted c hp hk hc hd => subst hk; exact hi.raiseFault hp hc hd
  | finished hp => exact hi.finished hp

/-! ### The turn of a unit -/

theorem step_unitTurn {s : State} {u : UnitId} (ha : (chooseAgent s).1 = some (.unit u)) :
    step s = unitMove u (chooseAgent s).2 := by
  rw [step_eq, ha]
  rfl

/-- Choosing who moves touches no unit. -/
@[simp] theorem chooseAgent_lane? (s : State) (v : UnitId) :
    (chooseAgent s).2.lane? v = s.lane? v := by
  rw [chooseAgent_state]
  exact State.lane?_congr rfl rfl v

/-- A unit's step answers "idle" only when none is enabled (R85, R101). -/
theorem phase_of_unitStep_idle {k : UnitKind} {l : Lane} (h : unitStep k l = .idle) :
    phase k l.regs = .stuck := by
  cases hp : phase k l.regs with
  | acc =>
    have := unitStep_acc hp
    rw [h] at this
    cases this
  | emit =>
    rw [unitStep_emit hp] at h
    rcases emit_cases l (emitBytes k l.regs.acc) with ⟨m, -, e⟩ | ⟨f, -, e⟩ <;> rw [e] at h <;> cases h
  | done => rw [unitStep_done hp] at h; cases h
  | stuck => rfl

/-- After a unit's own turn the unit is as its step says. -/
theorem step_unitTurn_lane {s t : State} {u : UnitId} {l : Lane} (h : step s = .next t)
    (ha : (chooseAgent s).1 = some (.unit u)) (hl : s.lane? u = some l) :
    (phase u.kind l.regs = .stuck ∧ t.lane? u = some l) ∨
    (∃ l', unitStep u.kind l = .moved l' ∧ t.lane? u = some l') ∨
    (∃ l' d, unitStep u.kind l = .done l' d ∧ t.lane? u = some l') := by
  have hl₀ : (chooseAgent s).2.lane? u = some l := by simpa using hl
  rw [step_unitTurn ha] at h
  simp only [unitMove, hl₀] at h
  split at h
  · next hs => cases h; exact .inl ⟨phase_of_unitStep_idle hs, hl₀⟩
  · next l' hs => cases h; exact .inr (.inl ⟨l', hs, State.lane?_setLane_self hl₀⟩)
  · next l' d hs =>
    cases h
    exact .inr (.inr ⟨l', d, hs, by simpa using State.lane?_setLane_self hl₀⟩)
  · cases h

/-! ### The invariant of the block, unit by unit -/

theorem State.lanes_ne_nil_iff {s : State} {k : UnitKind} :
    s.lanes k ≠ [] ↔ ∃ l, s.lane? ⟨k, 0⟩ = some l := by
  cases h : s.lanes k <;> simp [State.lane?, h]

theorem State.mem_lanes_iff {s : State} {k : UnitKind} {l : Lane} :
    l ∈ s.lanes k ↔ ∃ i, s.lane? ⟨k, i⟩ = some l := List.mem_iff_getElem?

theorem BlockInv.laneInv {s : State} (h : BlockInv s) {v : UnitId} {l : Lane}
    (hl : s.lane? v = some l) : LaneInv v.kind l := by
  obtain ⟨k, i⟩ := v
  have hm : l ∈ s.lanes k := State.mem_lanes_iff.mpr ⟨i, hl⟩
  cases k
  · exact h.enc_inv l hm
  · exact h.dec_inv l hm

/-- A step loses no unit (R128). -/
theorem step_lanes_ne_nil {s t : State} (h : step s = .next t) {k : UnitKind} (hk : s.lanes k ≠ []) :
    t.lanes k ≠ [] := by
  obtain ⟨l, hl⟩ := State.lanes_ne_nil_iff.mp hk
  refine State.lanes_ne_nil_iff.mpr ?_
  rcases step_laneChange h hl with ⟨-, h'⟩ | ⟨l', h', -⟩
  · exact ⟨_, h'⟩
  · exact ⟨l', h'⟩

/-- A step keeps the invariant of every unit. -/
theorem step_laneInv {s t : State} (hI : BlockInv s) (h : step s = .next t) {k : UnitKind} {l' : Lane}
    (hm : l' ∈ t.lanes k) : LaneInv k l' := by
  obtain ⟨i, hl'⟩ := State.mem_lanes_iff.mp hm
  obtain ⟨l, hl⟩ := step_lane_rev h hl'
  rcases step_laneChange h hl with ⟨-, h₁⟩ | ⟨l₁, h₁, hc⟩ <;> (rw [hl'] at h₁; cases h₁)
  · exact laneInv_reset k
  · exact hc.keeps_laneInv (hI.laneInv hl)

/-! ### Responses (R60 to R63) -/

theorem outLen_pos {k : UnitKind} {n : Nat} (hl : n % groupIn k = 0) (hn : 0 < n) :
    0 < outLen k n := by
  have hq : 0 < n / groupIn k :=
    Nat.div_pos (Nat.le_of_dvd hn (Nat.dvd_of_mod_eq_zero hl)) (groupIn_pos k)
  cases k <;> exact Nat.mul_pos (by decide) hq

/-- The answer an instruction's checks give at once is as R60 to R63 say (R117). -/
theorem deliveryInv_of_verdict {i : Instr} {st : Status} {x : Nat}
    (h : verdictOf i = .answer st x ∨ (st = .errAlloc ∧ verdictOf i = .ask x)) (tid : Nat) :
    DeliveryInv { resp := { tid := tid, status := st, outLen := 0, info := x }, out := .absent } := by
  have hc := verdictOf_cases i
  rcases h with hv | ⟨rfl, hv⟩ <;> rw [hv] at hc
  · cases hc with
    | badLength h =>
      have hlt := Nat.mod_lt i.len (groupIn_pos (unitKind i))
      have hg : groupIn (unitKind i) ≤ 5 := by cases unitKind i <;> decide
      exact ⟨rfl, Nat.pos_of_ne_zero h, by dsimp only; omega⟩
    | badChar x hc hs => exact rfl
    | empty h => exact ⟨rfl, rfl, rfl, fun a ha => absurd ha (Nat.not_lt_zero a)⟩
  · cases hc with
    | ask hl hn hs => exact ⟨rfl, outLen_pos hl hn⟩

/-- An illegal word's answer is as R63 says (R114). -/
theorem deliveryInv_illegal {c : Command} {e : IllegalWord} (h : decode c = .error e) (tid : Nat) :
    DeliveryInv { resp := { tid := tid, status := .errCmd, outLen := 0, info := c.cmd.toNat },
                  out := .absent } := by
  refine ⟨rfl, c.cmd.isLt, ?_⟩
  have hb : byteOf c.cmd.toNat = c.cmd := by simp [byteOf]
  rw [hb]
  exact not_legalWord_of_decode_error h

/-- The DONE step hands over a buffer with every byte of OUT[0..OUT_LEN) written (R84, R100, R140). -/
theorem deliveryInv_done {k : UnitKind} {l l' : Lane} {d : Delivery} (hi : LaneInv k l)
    (h : unitStep k l = .done l' d) : DeliveryInv d := by
  obtain ⟨hp, -, rfl⟩ := unitStep_done_cases h
  obtain ⟨hst, hph, hip⟩ := (phase_cases k l.regs).2.2.mp hp
  obtain ⟨hR, -⟩ := (laneInv_run_iff hst).mp hi
  obtain ⟨hopos, hout⟩ := hR.done hph hip
  obtain ⟨hlen, hrange⟩ := hR.first (Nat.le_of_eq hip.symm)
  have hbytes : (groupBytes k (l.inp.first l.regs.n)).length = outLen k l.regs.n := by
    rw [groupBytes_length hrange, hlen, outLen]
  refine ⟨rfl, by rw [hout, hopos, Memory.size_ofBytes], by rw [hout, Memory.wf_ofBytes], fun a ha => ?_⟩
  replace ha : a < outLen k l.regs.n := hopos ▸ ha
  rw [hout, Memory.read_ofBytes, if_pos ha, List.getElem?_eq_getElem (hbytes.symm ▸ ha)]
  rfl

theorem NewResponse.deliveryInv {s : State} {d : Delivery} (hI : BlockInv s) (h : NewResponse s d) :
    DeliveryInv d := by
  cases h with
  | checked c i st x hc hi hd hv => exact hd ▸ deliveryInv_of_verdict hv _
  | illegal c e hc he hd => exact hd ▸ deliveryInv_illegal he _
  | done u l l' ha hl hs => exact deliveryInv_done (hI.laneInv hl) hs

/-- A new response is of a command taken up in this step, or of the one that the unit with the turn ends
(R60). -/
theorem NewResponse.command_cases {s : State} {d : Delivery} (h : NewResponse s d) :
    (∃ c, TakenUp s c ∧ c.tid = d.resp.tid) ∨
      ∃ u l, (chooseAgent s).1 = some (.unit u) ∧ s.lane? u = some l ∧ l.regs.st = .run ∧
        l.regs.tid = d.resp.tid ∧ d.resp.status = .ok ∧ d.out = l.out := by
  cases h with
  | checked c i st x hc hi hd hv => exact .inl ⟨c, hc, by rw [hd, eq_encode_of_decode hi]; rfl⟩
  | illegal c e hc he hd => exact .inl ⟨c, hc, by rw [hd]⟩
  | done u l l' ha hl hs =>
    obtain ⟨hp, -, rfl⟩ := unitStep_done_cases hs
    exact .inr ⟨u, l, ha, hl, st_of_phase hp (by decide), rfl, rfl, rfl⟩

/-! ### The frame of an instruction (R28, R47) -/

@[simp] theorem State.length_lanes_setLane (u : UnitId) (l : Lane) (k : UnitKind) (s : State) :
    ((s.setLane u l).lanes k).length = (s.lanes k).length := by
  by_cases h : k = u.kind
  · subst h
    rw [State.setLane_lanes, List.length_set]
  · rw [State.setLane_lanes_ne h]

@[simp] theorem State.length_enc_setLane (u : UnitId) (l : Lane) (s : State) :
    (s.setLane u l).enc.length = s.enc.length := State.length_lanes_setLane u l .enc s

@[simp] theorem State.length_dec_setLane (u : UnitId) (l : Lane) (s : State) :
    (s.setLane u l).dec.length = s.dec.length := State.length_lanes_setLane u l .dec s

/-- With the unit picked, an instruction adds one response or starts its command on that unit, in a state
that differs from the one before in the host's draws only (R64, R118). -/
theorem exec_picked_cases {i : Instr} {s s₁ t : State} {u j : Nat} {us : List Nat}
    (hi : s.idleUnits (unitKind i) = u :: us) (hp : pickUnit u us s = (j, s₁))
    (h : exec i s = .next t) :
    ∃ s₂ : State, s₂ = { s with picks := s₁.picks, answers := s₂.answers, draws := s₂.draws } ∧
      ((∃ st x, t = answerNow i.tid st x s₂) ∨
        ∃ l n, s₂.lane? ⟨unitKind i, j⟩ = some l ∧
          t = s₂.setLane ⟨unitKind i, j⟩ (l.start (encode i) n)) := by
  obtain ⟨-, hs₁⟩ := pickUnit_cases hp
  obtain ⟨l, -, -, hl⟩ := pickUnit_lane hi hp
  have asked : ∀ {a : Alloc} {s₂ : State}, allocate i.tid s₁ = (a, s₂) →
      s₂ = { s with picks := s₁.picks, answers := s₂.answers, draws := s₂.draws } := by
    intro a s₂ h₂
    rw [allocate_cases h₂, hs₁]
  rw [exec_eq_submit, submit_picked hi hp] at h
  rcases accept_cases h with ⟨st, x, -, rfl⟩ | ⟨n, s₂, -, h₂, rfl⟩ | ⟨n, s₂, -, h₂, rfl⟩
  · exact ⟨s₁, by rw [hs₁], .inl ⟨st, x, rfl⟩⟩
  · exact ⟨s₂, asked h₂, .inl ⟨.errAlloc, n, rfl⟩⟩
  · have hl₂ : s₂.lane? ⟨unitKind i, j⟩ = some l := (allocate_lane? h₂ _).trans hl
    exact ⟨s₂, asked h₂, .inr ⟨l, n, hl₂, startUnit_lane hl₂ _ _⟩⟩

/-! ### The host's turn, reset and power-up -/

/-- The turn of the host is its next act. -/
theorem step_host {s : State} {ts : List Agent} (h : s.turns = .host :: ts) :
    step s = (hostMove { s with turns := ts }).outcome := step_turn h

/-- A reset resets every unit (R132). -/
theorem eq_reset_of_mem_resetBlock {s : State} {l : Lane}
    (h : l ∈ (resetBlock s).enc ++ (resetBlock s).dec) : l = Lane.reset := by
  simp only [resetBlock, List.mem_append, List.mem_map] at h
  rcases h with ⟨_, -, rfl⟩ | ⟨_, -, rfl⟩ <;> rfl

/-- At power-up every unit is `Lane.reset` (R135). -/
theorem eq_reset_of_mem_powerUp {l : Lane} (h : l ∈ State.reset.enc ++ State.reset.dec) :
    l = Lane.reset := by
  rcases List.mem_append.mp h with h | h <;> exact List.eq_of_mem_replicate h

end Sys2Proof.Machine
end

section
/-! PROOFS. The statements about the state: the invariant of the block, the rules about every instruction and every step, the host's acts and the values at power-up. -/

namespace Sys2Proof.Machine

/-! ### The invariant of the block -/

/-- Settles O51: units by `LaneChange.keeps_laneInv`, the one new response by where it comes from, and
held commands because only decoded ones are held. -/
theorem stepKeepsBlockInv : Obligations.StepKeepsBlockInv := by
  unfold Obligations.StepKeepsBlockInv
  intro s t hI h
  constructor
  case has_enc => exact step_lanes_ne_nil (k := .enc) h hI.has_enc
  case has_dec => exact step_lanes_ne_nil (k := .dec) h hI.has_dec
  case enc_inv => exact fun l hl => step_laneInv (k := .enc) hI h hl
  case dec_inv => exact fun l hl => step_laneInv (k := .dec) hI h hl
  case responses_inv =>
    intro d hd
    rcases step_responses h with hr | ⟨d', hr, hn⟩ <;> rw [hr] at hd
    · exact hI.responses_inv d hd
    · rcases List.mem_append.mp hd with hd | hd
      · exact hI.responses_inv d hd
      · exact List.mem_singleton.mp hd ▸ hn.deliveryInv hI
  case held_legal =>
    intro c hc
    rcases step_held h hc with hm | ⟨-, i, hi⟩
    · exact hI.held_legal c hm
    · exact legalWord_of_decode_ok hi

/-! ### Every instruction and every step -/

/-- Settles O28, in the two cases of `exec_picked_cases`. -/
theorem instructionFrame : Obligations.InstructionFrame := by
  unfold Obligations.InstructionFrame
  intro i s s₁ t u us j hi hp h
  obtain ⟨s₂, hs₂, ht⟩ := exec_picked_cases hi hp h
  have hlane : ∀ v, s₂.lane? v = s.lane? v := fun v => by
    rw [hs₂]
    exact State.lane?_congr rfl rfl v
  have hscript : s₂.script = s.script := by rw [hs₂]
  have hpolled : s₂.polled = s.polled := by rw [hs₂]
  have hturns : s₂.turns = s.turns := by rw [hs₂]
  have hheld : s₂.held = s.held := by rw [hs₂]
  have hpicks : s₂.picks = s₁.picks := by rw [hs₂]
  have henc : s₂.enc = s.enc := by rw [hs₂]
  have hdec : s₂.dec = s.dec := by rw [hs₂]
  have hresp : s₂.responses = s.responses := by rw [hs₂]
  rcases ht with ⟨st, x, rfl⟩ | ⟨l, n, hl, rfl⟩
  · simp [hlane, hscript, hpolled, hturns, hheld, hpicks, henc, hdec, hresp]
  · refine ⟨by simpa, by simpa, by simpa, by simpa, by simpa, by simp [henc], by simp [hdec],
      fun v hv => by rw [State.lane?_setLane_ne hv, hlane],
      .inr ⟨by simpa, l, _, (hlane _).symm.trans hl, State.lane?_setLane_self hl, rfl, rfl, fun a => ?_⟩⟩
    exact ⟨Memory.read_fresh n a, Memory.read_ofBytes i.len i.input a⟩

/-- Settles O36: a step that is no reset makes a `LaneChange` of the unit, which moves `st` as listed. -/
theorem unitStateTransitions : Obligations.UnitStateTransitions := by
  unfold Obligations.UnitStateTransitions
  intro s t u l h hl
  rcases step_laneChange h hl with ⟨hr, h'⟩ | ⟨l', h', hc⟩
  · exact ⟨_, h', .inr ⟨hr, rfl⟩⟩
  · exact ⟨l', h', .inl hc.stMove⟩

/-- Settles O37: no `LaneChange` but the trivial one starts from FAULT. -/
theorem faultIsSticky : Obligations.FaultIsSticky := by
  unfold Obligations.FaultIsSticky
  intro s t u l h hl hf hn
  rcases step_laneChange h hl with ⟨hr, -⟩ | ⟨l', h', hc⟩
  · exact absurd hr hn
  · rw [h', hc.eq_of_fault hf]

/-- Settles O38: of all `LaneChange`s only the start of a command latches. -/
theorem latchedFieldsKept : Obligations.LatchedFieldsKept := by
  unfold Obligations.LatchedFieldsKept
  intro s t u l l' h hn hl hl' hs
  exact (laneChange_of_not_reset h hn hl hl').latched hs

/-- Settles O39: of all `LaneChange`s only the fault writes the fault record. -/
theorem faultRecordKept : Obligations.FaultRecordKept := by
  unfold Obligations.FaultRecordKept
  intro s t u l l' h hn hl hl' hs
  exact (laneChange_of_not_reset h hn hl hl').faultRecord hs

/-- Settles O40, by the three things a unit's turn can come to. -/
theorem unitTurnTouchesNoOther : Obligations.UnitTurnTouchesNoOther := by
  unfold Obligations.UnitTurnTouchesNoOther
  intro s t u v h ha hv
  rw [step_unitTurn ha] at h
  have hc := chooseAgent_state s
  have hlane := chooseAgent_lane? s
  generalize (chooseAgent s).2 = s₀ at h hc hlane
  have hheld : s₀.held = s.held := by rw [hc]
  have hscript : s₀.script = s.script := by rw [hc]
  have hanswers : s₀.answers = s.answers := by rw [hc]
  have hpicks : s₀.picks = s.picks := by rw [hc]
  have hresp : s₀.responses = s.responses := by rw [hc]
  cases unitMove_cases h with
  | nothing => exact ⟨hlane v, hheld, hscript, hanswers, hpicks, .inl hresp⟩
  | moved l l' hl hs =>
    simp [State.lane?_setLane_ne hv, hlane, hheld, hscript, hanswers, hpicks, hresp]
  | done l l' d hl hs =>
    obtain ⟨-, -, rfl⟩ := unitStep_done_cases hs
    simp [State.lane?_setLane_ne hv, hheld, hscript, hanswers, hpicks, hresp, hlane,
      (hlane u).symm.trans hl]

/-- Settles O41: a start needs an IDLE unit, and a unit's own step its turn. -/
theorem runningUnitUndisturbed : Obligations.RunningUnitUndisturbed := by
  unfold Obligations.RunningUnitUndisturbed
  intro s t u l h hl hrun hturn hn
  cases step_lane h hl with
  | same h => exact h
  | reset ha hs h => exact absurd ⟨ha, hs⟩ hn
  | started c i n hc hd hi hk hv ha h => rw [hrun] at hi; cases hi
  | moved l' ha hs h hr => exact absurd ha hturn
  | done l' d ha hs h hr => exact absurd ha hturn

/-- Settles O42: the step of the unit is none, an ACC, an EMIT; the fault and DONE leave RUN. -/
theorem sequencingAdvances : Obligations.SequencingAdvances := by
  unfold Obligations.SequencingAdvances
  intro s t u l l' h ha hl hl' hrun hrun'
  obtain ⟨hacc, hemit, -⟩ := phase_cases u.kind l.regs
  rcases step_unitTurn_lane h ha hl with ⟨hp, h₁⟩ | ⟨l₁, hs, h₁⟩ | ⟨l₁, d, hs, h₁⟩ <;>
    (rw [hl'] at h₁; cases h₁)
  · rw [hp] at hacc hemit
    exact .inl ⟨rfl, fun hA => Phase.noConfusion (hacc.mpr ⟨hrun, hA⟩),
      fun hE => Phase.noConfusion (hemit.mpr ⟨hrun, hE⟩)⟩
  · rcases unitStep_moved_cases hs with ⟨hp, b, a, -, rfl, -⟩ | ⟨hp, m, -, rfl⟩ | ⟨-, -, c, -, -, rfl⟩
    · obtain ⟨-, hph, -⟩ := hacc.mp hp
      exact .inr (.inl ⟨hph, rfl, Lane.accumulated_ph_toNat a hph, rfl, rfl⟩)
    · exact .inr (.inr ⟨(hemit.mp hp).2, rfl, rfl, rfl, rfl⟩)
    · cases hrun'
  · obtain ⟨-, rfl, -⟩ := unitStep_done_cases hs
    cases hrun'

/-- Settles O43, by where the one new response of a step comes from. -/
theorem everyResponseHasACommand : Obligations.EveryResponseHasACommand := by
  unfold Obligations.EveryResponseHasACommand
  intro s t h
  rcases step_responses h with hr | ⟨d, hr, hd⟩
  · exact .inl hr
  · refine .inr ⟨d, hr, ?_⟩
    rcases hd.command_cases with ⟨c, ⟨ha, hs⟩ | ⟨m, ha, hm⟩, ht⟩ | hu
    · exact .inl ⟨c, ha, hs, ht⟩
    · exact .inr (.inl ⟨m, c, ha, hm, ht⟩)
    · exact .inr (.inr hu)

/-! ### The host's acts -/

/-- Settles O7: the encoding of an instruction decodes, so the host's act is to hold it. -/
theorem postedCommandIsHeld : Obligations.PostedCommandIsHeld := by
  unfold Obligations.PostedCommandIsHeld
  intro s i rest ts ht hs
  rw [step_host ht]
  simp [hostMove, hs, Move.outcome, hold]

/-- Settles O45: a reset makes every unit `Lane.reset` and empties the held commands. -/
theorem resetStep : Obligations.ResetStep := by
  unfold Obligations.ResetStep
  intro s rest ts ht hs
  have hstep : step s = .next (resetBlock { s with turns := ts, script := rest }) := by
    rw [step_host ht]
    simp [hostMove, hs, Move.outcome]
  refine ⟨_, hstep, rfl, rfl, rfl, rfl, List.length_map _, List.length_map _, ⟨rfl, fun l hl => ?_⟩,
    fun l hl => ?_⟩ <;> rw [eq_reset_of_mem_resetBlock hl]
  · rfl
  · exact ⟨rfl, rfl, rfl, rfl, rfl, rfl, rfl, rfl, rfl⟩

/-- Settles O46: the unit is there, so its `st` is read and logged. -/
theorem statusRead : Obligations.StatusRead := by
  unfold Obligations.StatusRead
  intro s u l rest ts ht hs hl
  rw [step_host ht]
  simp [hostMove, hs, Move.outcome, State.status, hl]

/-! ### Values at power-up, and codes -/

/-- Settles O12: each code is the value of its defining equation. -/
theorem codeValues : Obligations.CodeValues :=
  ⟨rfl, rfl, rfl, rfl, rfl, rfl, rfl, rfl, rfl, rfl⟩

/-- Settles O44: every unit at power-up is `Lane.reset`. -/
theorem powerUpState : Obligations.PowerUpState := by
  unfold Obligations.PowerUpState
  refine ⟨fun l hl => ?_, by decide, by decide, rfl, rfl⟩
  rw [eq_reset_of_mem_powerUp hl]
  exact ⟨rfl, rfl, rfl, rfl, rfl, rfl, rfl, rfl, rfl⟩

/-- Settles O50: every unit is reset, and there is no response and no held command to speak of. -/
theorem powerUpMeetsBlockInv : Obligations.PowerUpMeetsBlockInv := by
  unfold Obligations.PowerUpMeetsBlockInv
  constructor
  case has_enc => decide
  case has_dec => decide
  case enc_inv =>
    intro l hl
    rw [eq_reset_of_mem_powerUp (List.mem_append_left _ hl)]
    exact laneInv_reset .enc
  case dec_inv =>
    intro l hl
    rw [eq_reset_of_mem_powerUp (List.mem_append_right _ hl)]
    exact laneInv_reset .dec
  case responses_inv => intro d hd; cases hd
  case held_legal => intro c hc; cases hc

end Sys2Proof.Machine
end

section
/-! PROOFS. What the rules about memory and the host's duty need: that a command the host supplies in full never stops the machine (R59), that the duty outlives a step, and what an ACCEPT step answers, as a function of the command and the host's answer (R88, R104). -/

namespace Sys2Proof.Machine

/-! ### Nothing stops when every byte is there -/

theorem accept_next {v : Verdict} (hv : ∀ f, v ≠ .stop f) (u : UnitId) (c : Command) (s : State) :
    ∃ t, accept u c v s = .next t := by
  cases v with
  | stop f => exact absurd rfl (hv f)
  | answer st x => exact ⟨_, rfl⟩
  | ask n =>
    rcases h : allocate c.tid s with ⟨a, s'⟩
    cases a <;> simp [accept, h]

/-- An instruction whose host supplies all its bytes answers a next state, from any state (R59, R79, R96). -/
theorem exec_next_of_wellFormed {i : Instr} (h : i.WellFormed) (s : State) :
    ∃ t, exec i s = .next t := by
  rw [exec_eq_submit]
  cases hi : s.idleUnits (unitKind i) with
  | nil => exact ⟨_, submit_held hi _ _⟩
  | cons u us =>
    rw [submit_picked hi rfl]
    exact accept_next (verdictOf_ne_stop h) _ _ _

/-- The part of the host's duty that concerns one unit: all of IN is there while it is in RUN (R59). -/
def LaneSupplied (l : Lane) : Prop := l.regs.st = .run → ∀ j < l.regs.n, (l.inp.read j).isSome

/-- A unit's turn never stops: ACC finds its byte by the host's duty, EMIT stays in OUT by R26. -/
theorem unitStep_ne_stop {k : UnitKind} {l : Lane} (hi : LaneInv k l) (hs : LaneSupplied l) (f : Fault) :
    unitStep k l ≠ .stop f := by
  intro h
  cases hp : phase k l.regs with
  | acc =>
    obtain ⟨hst, -, hip⟩ := (phase_cases k l.regs).1.mp hp
    have hb := hs hst _ hip
    have hacc := unitStep_acc hp
    rw [h] at hacc
    cases hacc with
    | absent hn => rw [hn] at hb; cases hb
  | emit =>
    obtain ⟨hst, hph⟩ := (phase_cases k l.regs).2.1.mp hp
    obtain ⟨hR, -⟩ := (laneInv_run_iff hst).mp hi
    rw [unitStep_emit hp, Lane.emit, hR.writeAll_emit hph] at h
    cases h
  | done => rw [unitStep_done hp] at h; cases h
  | stuck => rw [unitStep_stuck hp] at h; cases h

theorem unitMove_next {u : UnitId} {s : State}
    (h : ∀ l, s.lane? u = some l → ∀ f, unitStep u.kind l ≠ .stop f) : ∃ t, unitMove u s = .next t := by
  unfold unitMove
  split
  · exact ⟨_, rfl⟩
  · next l hl =>
    split
    · exact ⟨_, rfl⟩
    · exact ⟨_, rfl⟩
    · exact ⟨_, rfl⟩
    · next f hf => exact absurd hf (h l hl f)

/-! ### The host's duty, unit by unit and command by command -/

theorem Supplied.laneSupplied {s : State} (h : Supplied s) {v : UnitId} {l : Lane}
    (hl : s.lane? v = some l) : LaneSupplied l := by
  obtain ⟨k, i⟩ := v
  have hm : l ∈ s.lanes k := State.mem_lanes_iff.mpr ⟨i, hl⟩
  cases k
  · exact h.lanes_ok l (List.mem_append_left _ hm)
  · exact h.lanes_ok l (List.mem_append_right _ hm)

/-- A command that the host is to issue, or that is held, comes with all its bytes. -/
theorem Supplied.wellFormed {s : State} (h : Supplied s) {c : Command} {i : Instr}
    (hc : .issue c ∈ s.script ∨ c ∈ s.held) (hd : decode c = .ok i) : i.WellFormed := by
  have hw : c.WellFormed := hc.elim (h.script_ok _) (h.held_ok c)
  rw [eq_encode_of_decode hd] at hw
  exact hw

/-- No turn of any agent stops, in a state that meets the invariant and the host's duty. -/
theorem agentMove_next {s : State} (hI : BlockInv s) (hS : Supplied s) (a : Agent) :
    ∃ t, (agentMove a s).outcome = .next t := by
  cases a with
  | host =>
    simp only [agentMove, hostMove]
    split
    · exact ⟨_, rfl⟩
    · next c rest hs =>
      split
      · next i hd => exact exec_next_of_wellFormed (hS.wellFormed (.inl (by simp [hs])) hd) _
      · exact ⟨_, rfl⟩
    · split <;> exact ⟨_, rfl⟩
    · exact ⟨_, rfl⟩
    · split <;> exact ⟨_, rfl⟩
    · split <;> exact ⟨_, rfl⟩
  | dispatcher k =>
    simp only [agentMove, dispatcherMove]
    split
    · exact ⟨_, rfl⟩
    · next c hk =>
      split
      · exact ⟨_, rfl⟩
      · next i hd =>
        split
        · exact ⟨_, rfl⟩
        · exact exec_next_of_wellFormed (hS.wellFormed (.inr (List.mem_of_getElem? hk)) hd) _
  | unit u => exact unitMove_next fun l hl => unitStep_ne_stop (hI.laneInv hl) (hS.laneSupplied hl)

/-! ### Choosing who moves -/

theorem BlockInv.after_chooseAgent {s : State} (h : BlockInv s) : BlockInv (chooseAgent s).2 := by
  rw [chooseAgent_state]
  exact ⟨h.has_enc, h.has_dec, h.enc_inv, h.dec_inv, h.responses_inv, h.held_legal⟩

theorem Supplied.after_chooseAgent {s : State} (h : Supplied s) : Supplied (chooseAgent s).2 := by
  rw [chooseAgent_state]
  exact ⟨h.script_ok, h.held_ok, h.lanes_ok⟩

/-- A step never stops in a state that meets the invariant and the host's duty (R31, R59). -/
theorem step_next {s : State} (hI : BlockInv s) (hS : Supplied s) : ∃ t, step s = .next t := by
  rw [step_eq]
  cases (chooseAgent s).1 with
  | none => exact ⟨_, rfl⟩
  | some a => exact agentMove_next hI.after_chooseAgent hS.after_chooseAgent a

/-! ### The duty outlives a step -/

/-- A unit that starts a command has all the bytes that came with it as its IN (R34, R81, R97). -/
theorem laneSupplied_start {i : Instr} (h : i.WellFormed) (l : Lane) (n : Nat) :
    LaneSupplied (l.start (encode i) n) := by
  intro _ j hj
  replace hj : j < i.len := hj
  rw [show (l.start (encode i) n).inp.read j = _ from Memory.read_ofBytes i.len i.input j, if_pos hj,
    List.getElem?_eq_getElem (Nat.lt_of_lt_of_eq hj h.symm)]
  rfl

/-- A unit's own step neither takes a byte of IN away nor changes LEN. -/
theorem LaneSupplied.moved {k : UnitKind} {l l' : Lane} (hs : LaneSupplied l)
    (h : unitStep k l = .moved l') : LaneSupplied l' := by
  have kept : l.regs.st = .run ∧ l'.inp = l.inp ∧ l'.regs.n = l.regs.n := by
    rcases unitStep_moved_cases h with
      ⟨hp, b, a, -, rfl, -⟩ | ⟨hp, m, -, rfl⟩ | ⟨hp, -, c, -, -, rfl⟩
    all_goals exact ⟨st_of_phase hp (by decide), rfl, rfl⟩
  obtain ⟨hrun, hinp, hn⟩ := kept
  intro _
  rw [hinp, hn]
  exact hs hrun

theorem step_laneSupplied {s t : State} (hS : Supplied s) (h : step s = .next t) {v : UnitId} {l' : Lane}
    (hl' : t.lane? v = some l') : LaneSupplied l' := by
  obtain ⟨l, hl⟩ := step_lane_rev h hl'
  cases step_lane h hl with
  | same h₁ => rw [hl'] at h₁; cases h₁; exact hS.laneSupplied hl
  | reset ha hs h₁ => rw [hl'] at h₁; cases h₁; exact fun hst => by cases hst
  | started c i n hc hd hi hk hv ha h₁ =>
    rw [hl'] at h₁; cases h₁; exact laneSupplied_start (hS.wellFormed hc hd) l n
  | moved l₁ ha hs h₁ hr => rw [hl'] at h₁; cases h₁; exact (hS.laneSupplied hl).moved hs
  | done l₁ d ha hs h₁ hr =>
    rw [hl'] at h₁
    cases h₁
    obtain ⟨-, rfl, -⟩ := unitStep_done_cases hs
    exact fun hst => by cases hst

/-- A step of any agent keeps the host's duty: no act, no command and no input is new. -/
theorem Supplied.after_step {s t : State} (hS : Supplied s) (h : step s = .next t) : Supplied t := by
  constructor
  case script_ok => exact fun a ha => hS.script_ok a (step_script h ha)
  case held_ok =>
    intro c hc
    rcases step_held h hc with hm | ⟨hm | hm, -⟩
    · exact hS.held_ok c hm
    · exact hS.script_ok _ hm
    · exact hS.script_ok _ hm
  case lanes_ok =>
    intro l hl
    rcases List.mem_append.mp hl with hl | hl
    · obtain ⟨i, hl⟩ := State.mem_lanes_iff (k := .enc).mp hl
      exact step_laneSupplied hS h hl
    · obtain ⟨i, hl⟩ := State.mem_lanes_iff (k := .dec).mp hl
      exact step_laneSupplied hS h hl

/-! ### ACCEPT as a function of the command and the host's answer (R88, R104) -/

/-- The response an ACCEPT step gives, if any: the answer of its checks, or ERR_ALLOC when the request for
a buffer is denied. No state of the block enters it. -/
def acceptResponse (i : Instr) (a : Alloc) : Option Delivery :=
  match verdictOf i, a with
  | .answer st x, _ =>
    some { resp := { tid := i.tid, status := st, outLen := 0, info := x }, out := .absent }
  | .ask n, .deny =>
    some { resp := { tid := i.tid, status := .errAlloc, outLen := 0, info := n }, out := .absent }
  | _, _ => none

theorem acceptResponse_answer {i : Instr} {st : Status} {x : Nat} (h : verdictOf i = .answer st x)
    (a : Alloc) : acceptResponse i a =
      some { resp := { tid := i.tid, status := st, outLen := 0, info := x }, out := .absent } := by
  simp only [acceptResponse, h]

theorem acceptResponse_deny {i : Instr} {n : Nat} (h : verdictOf i = .ask n) :
    acceptResponse i .deny =
      some { resp := { tid := i.tid, status := .errAlloc, outLen := 0, info := n }, out := .absent } := by
  simp only [acceptResponse, h]

theorem acceptResponse_grant {i : Instr} {n : Nat} (h : verdictOf i = .ask n) :
    acceptResponse i .grant = none := by
  simp only [acceptResponse, h]

/-- With one IDLE unit of the kind, an instruction gives the response of `acceptResponse`; when that is
none, it starts its command on the unit. -/
theorem exec_single_cases {i : Instr} {s t : State} {j : Nat} {a : Alloc}
    (hj : s.idleUnits (unitKind i) = [j]) (ha : (allocate i.tid s).1 = a) (h : exec i s = .next t) :
    (∃ d, acceptResponse i a = some d ∧ t.responses = s.responses ++ [d]) ∨
    (acceptResponse i a = none ∧ t.responses = s.responses ∧
      ∃ l : Lane, t.lane? ⟨unitKind i, j⟩ = some (l.start (encode i) (outLen (unitKind i) i.len))) := by
  obtain ⟨l, -, -, hl⟩ := pickUnit_lane hj (pickUnit_single j s)
  rw [exec_eq_submit, submit_picked hj (pickUnit_single j s)] at h
  have asked : ∀ {b : Alloc} {s' : State}, allocate (encode i).tid s = (b, s') →
      b = a ∧ s'.responses = s.responses := by
    intro b s' hb
    exact ⟨by rw [← ha, show allocate i.tid s = _ from hb], by rw [allocate_cases hb]⟩
  rcases accept_cases h with ⟨st, x, hv, rfl⟩ | ⟨n, s', hv, hb, rfl⟩ | ⟨n, s', hv, hb, rfl⟩
  · exact .inl ⟨_, acceptResponse_answer hv a, rfl⟩
  · obtain ⟨rfl, hr⟩ := asked hb
    exact .inl ⟨_, acceptResponse_deny hv, by rw [answerNow_responses, hr]; rfl⟩
  · obtain ⟨rfl, hr⟩ := asked hb
    have hl' : s'.lane? ⟨unitKind i, j⟩ = some l := (allocate_lane? hb _).trans hl
    have hn : n = outLen (unitKind i) i.len := by
      have hc := verdictOf_cases i
      rw [hv] at hc
      cases hc with
      | ask hl hpos hs => rfl
    rw [startUnit_lane hl', ← hn]
    exact .inr ⟨acceptResponse_grant hv, by rw [State.setLane_responses, hr],
      l, State.lane?_setLane_self hl'⟩

end Sys2Proof.Machine
end

section
/-! PROOFS. The statements about memory: the byte order of a group, the host's reads of OUT and its duty about IN, and that an ACCEPT step finds nothing of earlier commands. -/

namespace Sys2Proof.Machine

/-- Settles O53: no turn of any agent stops, and what the host owes after a step it owed before. -/
theorem stepNeverStops : Obligations.StepNeverStops := by
  unfold Obligations.StepNeverStops
  intro s hI hS
  obtain ⟨t, ht⟩ := step_next hI hS
  exact ⟨t, ht, hS.after_step ht⟩

/-- Settles O59: what an ACCEPT step gives is `acceptResponse`, and a start writes every field but the
fault record. -/
theorem noStateAcrossCommands : Obligations.NoStateAcrossCommands := by
  unfold Obligations.NoStateAcrossCommands
  intro i s s' t t' j j' a hj hj' ha ha' h h'
  have key := exec_single_cases hj ha h
  have key' := exec_single_cases hj' ha' h'
  cases hd : acceptResponse i a with
  | some d =>
    simp only [hd, Option.some.injEq, exists_eq_left', reduceCtorEq, false_and, or_false] at key key'
    exact .inl ⟨d, key, key'⟩
  | none =>
    simp only [hd, reduceCtorEq, false_and, exists_false, true_and, false_or] at key key'
    obtain ⟨hr, l, hl⟩ := key
    obtain ⟨hr', l', hl'⟩ := key'
    exact .inr ⟨hr, hr', _, _, hl, hl', rfl, rfl, rfl⟩

/-- Settles O48: the invariant of an OK response has every byte below OUT_LEN written. -/
theorem outputRead : Obligations.OutputRead := by
  unfold Obligations.OutputRead
  intro s d a hI hd
  have hread : d.resp.status = .ok ∧ a < d.resp.outLen → (d.out.read a).isSome := by
    rintro ⟨hok, ha⟩
    have hi := hI.responses_inv d hd
    simp only [DeliveryInv, hok] at hi
    obtain ⟨-, -, -, hbytes⟩ := hi
    exact hbytes a ha
  unfold Delivery.hostRead
  split
  · next hc => exact iff_of_true (hread hc) hc
  · next hc => exact iff_of_false (by simp) hc

/-- Settles O16: accumulation wraps once at the end, and the value it wraps is below `2^32`. -/
theorem encoderGroupBigEndian : Obligations.EncoderGroupBigEndian := by
  unfold Obligations.EncoderGroupBigEndian
  intro b0 b1 b2 b3
  refine ⟨?_, be32_toNat b0 b1 b2 b3, bytesOf_be32 b0 b1 b2 b3⟩
  rw [show (0#32 : U32) = wrap32 0 from rfl]
  simp only [accByte_wrap32, be32]
  exact congrArg wrap32 (by omega)

end Sys2Proof.Machine
end

section
/-! PROOFS. What the statements about encoding and dispatch need: the illegal command words, the picks that reach each IDLE unit, the dispatcher's hand-over of a held command, and when the host's WAIT is over. -/

namespace Sys2Proof.Machine

/-! ### Command words (R54 to R58) -/

theorem decodeWord_error_iff (w : Byte) : (∃ e, decodeWord w = .error e) ↔ ¬ LegalWord w := by
  cases h : decodeWord w with
  | ok o =>
    have legal : LegalWord w := by
      rcases (decodeWord_ok_iff w o).mp h with ⟨-, hw⟩ | ⟨-, hw⟩ | ⟨-, hw⟩
      · exact .inl hw
      · exact .inr (.inl hw)
      · exact .inr (.inr hw)
    exact iff_of_false (by simp) (not_not_intro legal)
  | error e =>
    have illegal : ¬ LegalWord w :=
      not_legalWord_of_decode_error (c := ⟨0, w, 0, []⟩) (e := e) (by simp [decode, h])
    exact iff_of_true ⟨e, rfl⟩ illegal

/-- The words other than the three legal ones, by their fields, over the 256 words (R54 to R57). -/
theorem not_legalWord_iff_fields (w : Byte) :
    ¬ LegalWord w ↔
      (w.extractLsb' 3 5 ≠ 0 ∨ w.extractLsb' 0 2 = 0b00#2 ∨ w.extractLsb' 0 2 = 0b11#2 ∨ w = 0x05#8) := by
  unfold LegalWord
  revert w
  decide

theorem decode_of_decodeTableWord {nbits w : Nat} {i : Instr} (h : decodeTableWord nbits w = some i) :
    decode (commandOfTableWord nbits w) = .ok i := by
  unfold decodeTableWord at h
  split at h
  · next hd => cases h; exact hd
  · cases h

/-! ### The choice of a unit, and the hand-over of a held command (R64) -/

/-- Every unit offered is picked under some value of the pick: its place among those offered (R64). -/
theorem pickUnit_reaches {u i : Nat} {us : List Nat} (h : i ∈ u :: us) (s : State) :
    ∃ p, ∀ ps, (pickUnit u us { s with picks := p :: ps }).1 = i := by
  cases us with
  | nil => exact ⟨0, fun ps => by simpa using (List.mem_singleton.mp h).symm⟩
  | cons v vs =>
    obtain ⟨p, hp, hi⟩ := List.mem_iff_getElem.mp h
    refine ⟨p, fun ps => ?_⟩
    have hmod : p % ((v :: vs).length + 1) = p := Nat.mod_eq_of_lt hp
    simp only [pickUnit, hmod]
    rw [List.getD_eq_getElem _ _ hp, hi]

/-- The dispatcher's turn for a held legal command runs it, unless no unit of its kind is IDLE (R64). -/
theorem dispatcherMove_legal {s : State} {k : Nat} {c : Command} {i : Instr} (hk : s.held[k]? = some c)
    (hd : decode c = .ok i) :
    (dispatcherMove k s).outcome =
      if s.idleUnits (unitKind i) = [] then .next s else exec i { s with held := s.held.eraseIdx k } := by
  simp only [dispatcherMove, hk, hd]
  split <;> rfl

/-! ### The host's WAIT (R67) -/

theorem inFlight_eq_false_iff {t : Nat} {s : State} :
    inFlight t s = false ↔
      (∀ c ∈ s.held, c.tid ≠ t) ∧ ∀ l ∈ s.enc ++ s.dec, l.regs.st = .idle ∨ l.regs.tid ≠ t := by
  simp only [inFlight, Bool.or_eq_false_iff, List.any_eq_false, Bool.and_eq_true, beq_iff_eq,
    bne_iff_ne, ne_eq, not_and_or, not_not]

theorem waitOver_iff {t : Nat} {s : State} :
    waitOver t s = true ↔ (∃ d ∈ s.responses, d.resp.tid = t) ∧ inFlight t s = false := by
  simp only [waitOver, Bool.and_eq_true, List.any_eq_true, beq_iff_eq, Bool.not_eq_true']

/-- The host's act `WAIT t` is done only when it is over. -/
theorem hostMove_wait {s : State} {t : Nat} {rest : List HostAct} (hs : s.script = .wait t :: rest) :
    (hostMove s).outcome = .next (if waitOver t s then { s with script := rest } else s) := by
  simp only [hostMove, hs]
  split <;> rfl

end Sys2Proof.Machine
end

section
/-! PROOFS. What fair executions need (R144): what one turn of a RUN unit brings its command to, how a unit in RUN comes to its end in a fair execution, and when a block whose host has nothing more to do falls quiet. -/

namespace Sys2Proof.Machine

/-! ### One turn of a unit in RUN (R85, R101, R144) -/

/-- R26 leaves a RUN unit one of ACC, EMIT and DONE: with no element left, `ph` is a multiple of the
group size too. -/
theorem Running.phase_ne_stuck {k : UnitKind} {l : Lane} (h : Running k l) (hrun : l.regs.st = .run) :
    phase k l.regs ≠ .stuck := by
  by_cases hemit : l.regs.ph.toNat = groupIn k
  · simp [phase_emit hrun hemit]
  have hph : l.regs.ph.toNat < groupIn k := Nat.lt_of_le_of_ne h.ph_le hemit
  by_cases hacc : l.regs.ip < l.regs.n
  · simp [phase_acc hrun hph hacc]
  have hip : l.regs.ip = l.regs.n := Nat.le_antisymm h.ip_le (Nat.not_lt.mp hacc)
  have hzero : l.regs.ph.toNat = 0 := by
    have hdvd : groupIn k ∣ l.regs.ph.toNat :=
      (Nat.dvd_sub_iff_right h.ph_le_ip (Nat.dvd_of_mod_eq_zero (hip ▸ h.len_ok))).mp
        (Nat.dvd_of_mod_eq_zero h.aligned)
    exact Nat.eq_zero_of_dvd_of_lt hdvd hph
  simp [phase_done hrun hzero hip]

theorem unitEnabled_of_run {s : State} (hI : BlockInv s) {u : UnitId} {l : Lane}
    (hl : s.lane? u = some l) (hrun : l.regs.st = .run) : unitEnabled u s = true := by
  obtain ⟨hR, -⟩ := (laneInv_run_iff hrun).mp (hI.laneInv hl)
  simpa [unitEnabled, hl] using hR.phase_ne_stuck hrun

theorem stepsLeft_accumulated {k : UnitKind} {l : Lane} (a : U32) (hp : l.regs.ph.toNat < groupIn k)
    (hi : l.regs.ip < l.regs.n) :
    stepsLeft k (l.accumulated a).regs + 1 = stepsLeft k l.regs := by
  simp only [stepsLeft, Lane.accumulated_ph_toNat a hp, Lane.accumulated_ip, Lane.accumulated_n,
    Nat.add_sub_add_right]
  omega

theorem stepsLeft_emitted {k : UnitKind} {r : UnitRegs} (hp : r.ph.toNat = groupIn k)
    (hle : r.ph.toNat ≤ r.ip) (hip : r.ip ≤ r.n) (o : Nat) (a : U32) :
    stepsLeft k { r with opos := o, acc := a, ph := 0#3 } + 1 = stepsLeft k r := by
  obtain ⟨hdiv, hmono⟩ := groups_div (groupIn_pos k) (hp ▸ hle) hip
  have hzero : (0#3).toNat = 0 := rfl
  simp only [stepsLeft, hp, hzero, Nat.sub_zero]
  omega

theorem stepsLeft_done {k : UnitKind} {r : UnitRegs} (hp : r.ph.toNat = 0) (hi : r.ip = r.n) :
    stepsLeft k r = 1 := by
  simp [stepsLeft, hp, hi]

/-- A unit that has read nothing yet needs an ACC for every element, an EMIT for every group, and DONE. -/
theorem stepsLeft_start {k : UnitKind} {r : UnitRegs} (hi : r.ip = 0) :
    stepsLeft k r = r.n + r.n / groupIn k + 1 := by
  simp [stepsLeft, hi]

/-- The unit runs the same command, on the same input. -/
structure SameCommand (l l' : Lane) : Prop where
  tid : l'.regs.tid = l.regs.tid
  cmd : l'.regs.cmd = l.regs.cmd
  n : l'.regs.n = l.regs.n
  inp : l'.inp = l.inp

/-- The OK response of the command a unit runs, with the whole output (R84, R100). -/
def okDelivery (k : UnitKind) (l : Lane) : Delivery :=
  { resp := { tid := l.regs.tid, status := .ok, outLen := outLen k l.regs.n, info := 0 },
    out := Memory.ofBytes (outLen k l.regs.n) (groupBytes k (l.inp.first l.regs.n)) }

theorem SameCommand.okDelivery_eq {l l' : Lane} (h : SameCommand l l') (k : UnitKind) :
    okDelivery k l' = okDelivery k l := by
  simp only [okDelivery, h.tid, h.n, h.inp]

/-- What the step of a RUN unit brings its command to: one step nearer its end, the fault of a DECODE, or
its end with the OK response; or a stop, for want of a byte of IN. -/
inductive RunStep (k : UnitKind) (l : Lane) : UnitStep → Prop
  | advanced (l' : Lane) (hrun : l'.regs.st = .run) (hc : SameCommand l l')
      (hs : stepsLeft k l'.regs + 1 = stepsLeft k l.regs) : RunStep k l (.moved l')
  | faulted (l' : Lane) (hf : l'.regs.st = .fault) (hk : k = .dec) (hw : l.regs.cmd = 0x02#8) :
      RunStep k l (.moved l')
  | ended (l' : Lane) (hi : l'.regs.st = .idle) (hs : stepsLeft k l.regs = 1) :
      RunStep k l (.done l' (okDelivery k l))
  | stopped (f : Fault) : RunStep k l (.stop f)

theorem unitStep_runStep {k : UnitKind} {l : Lane} (hI : LaneInv k l) (hrun : l.regs.st = .run) :
    RunStep k l (unitStep k l) := by
  obtain ⟨hR, -⟩ := (laneInv_run_iff hrun).mp hI
  cases hs : unitStep k l with
  | idle => exact absurd (phase_of_unitStep_idle hs) (hR.phase_ne_stuck hrun)
  | stop f => exact .stopped f
  | moved l' =>
    rcases unitStep_moved_cases hs with
      ⟨hp, b, a, -, rfl, -⟩ | ⟨hp, m, -, rfl⟩ | ⟨hp, rfl, c, hc, hd, rfl⟩
    · obtain ⟨-, hph, hip⟩ := (phase_cases k l.regs).1.mp hp
      exact .advanced _ hrun ⟨rfl, rfl, rfl, rfl⟩ (stepsLeft_accumulated a hph hip)
    · obtain ⟨-, hph⟩ := (phase_cases k l.regs).2.1.mp hp
      exact .advanced _ hrun ⟨rfl, rfl, rfl, rfl⟩ (stepsLeft_emitted hph hR.ph_le_ip hR.ip_le _ _)
    · obtain ⟨-, -, hw, -⟩ := (laneInv_fault_iff rfl).mp (hI.raiseFault hp hc hd)
      exact .faulted _ rfl rfl hw
  | done l' d =>
    obtain ⟨hp, rfl, rfl⟩ := unitStep_done_cases hs
    obtain ⟨-, hph, hip⟩ := (phase_cases k l.regs).2.2.mp hp
    obtain ⟨hopos, hout⟩ := hR.done hph hip
    rw [hopos, hout]
    exact .ended _ rfl (stepsLeft_done hph hip)

/-- What the turn of a RUN unit does to the unit and to the response history. -/
inductive RunTurn (s t : State) (u : UnitId) (l : Lane) : Prop
  | advanced (l' : Lane) (hl : t.lane? u = some l') (hrun : l'.regs.st = .run) (hc : SameCommand l l')
      (hs : stepsLeft u.kind l'.regs + 1 = stepsLeft u.kind l.regs) (hr : t.responses = s.responses)
  | faulted (l' : Lane) (hl : t.lane? u = some l') (hf : l'.regs.st = .fault) (hk : u.kind = .dec)
      (hw : l.regs.cmd = 0x02#8) (hr : t.responses = s.responses)
  | ended (l' : Lane) (hl : t.lane? u = some l') (hi : l'.regs.st = .idle)
      (hs : stepsLeft u.kind l.regs = 1) (hr : t.responses = s.responses ++ [okDelivery u.kind l])

theorem step_runTurn {s t : State} {u : UnitId} {l : Lane} (hI : BlockInv s) (h : step s = .next t)
    (ha : Takes s (.unit u)) (hl : s.lane? u = some l) (hrun : l.regs.st = .run) : RunTurn s t u l := by
  have hl₀ : (chooseAgent s).2.lane? u = some l := by simpa using hl
  have hr₀ : (chooseAgent s).2.responses = s.responses := by rw [chooseAgent_state]
  rw [step_unitTurn ha] at h
  have hstep := unitStep_runStep (hI.laneInv hl) hrun
  simp only [unitMove, hl₀] at h
  generalize unitStep u.kind l = us at h hstep
  cases hstep with
  | advanced l' hrun' hc hs =>
    cases h
    exact .advanced l' (State.lane?_setLane_self hl₀) hrun' hc hs (by simp [hr₀])
  | faulted l' hf hk hw =>
    cases h
    exact .faulted l' (State.lane?_setLane_self hl₀) hf hk hw (by simp [hr₀])
  | ended l' hi hs =>
    cases h
    exact .ended l' (by simpa using State.lane?_setLane_self hl₀) hi hs (by simp [hr₀, okDelivery])
  | stopped f => cases h

/-! ### A unit in RUN over a fair execution (R144) -/

theorem State.status_eq_some_iff {s : State} {u : UnitId} {x : UnitSt} :
    s.status u = some x ↔ ∃ l, s.lane? u = some l ∧ l.regs.st = x := by
  simp only [State.status, Option.map_eq_some_iff]

theorem Execution.blockInv {run : Nat → State} (hE : Execution run) (h : BlockInv (run 0)) (k : Nat) :
    BlockInv (run k) := by
  induction k with
  | zero => exact h
  | succ k ih => exact stepKeepsBlockInv _ _ ih (hE k)

/-- The two steps that can change a unit in RUN: its own turn, and a reset (R28, R132). -/
def Disturbs (u : UnitId) (s : State) : Prop := Takes s (.unit u) ∨ ResetTurn s

/-- Until such a step a unit in RUN stays as it is, and has no turn. -/
theorem Execution.undisturbed {run : Nat → State} (hE : Execution run) {k e : Nat} {u : UnitId} {l : Lane}
    (hl : (run k).lane? u = some l) (hrun : l.regs.st = .run) (hke : k ≤ e)
    (hq : ∀ j, k ≤ j → j < e → ¬ Disturbs u (run j)) :
    (run e).lane? u = some l ∧ unitTurns run u e = unitTurns run u k := by
  induction e, hke using Nat.le_induction with
  | base => exact ⟨hl, rfl⟩
  | succ e hke ih =>
    obtain ⟨hle, hte⟩ := ih fun j hkj hje => hq j hkj (Nat.lt_succ_of_lt hje)
    obtain ⟨hturn, hreset⟩ := not_or.mp (hq e hke (Nat.lt_succ_self e))
    exact ⟨runningUnitUndisturbed _ _ u l (hE e) hle hrun hturn hreset,
      (unitTurns_succ_of_not_takes hturn).trans hte⟩

/-- In a fair execution such a step comes, since a unit in RUN always has an enabled step. -/
theorem Execution.exists_disturbs {run : Nat → State} (hE : Execution run) (hF : UnitsFair run)
    (h0 : BlockInv (run 0)) {k : Nat} {u : UnitId} {l : Lane} (hl : (run k).lane? u = some l)
    (hrun : l.regs.st = .run) : ∃ e ≥ k, Disturbs u (run e) := by
  by_contra hnone
  push Not at hnone
  have enabled : ∀ j ≥ k, unitEnabled u (run j) = true := fun j hj =>
    unitEnabled_of_run (hE.blockInv h0 j)
      (hE.undisturbed hl hrun hj fun i hi _ => hnone i hi).1 hrun
  obtain ⟨j, hj, ht⟩ := hF u k enabled
  exact hnone j hj (.inl ht)

/-- From step `k` up to step `e` the unit is in RUN, with no reset before `e`. -/
structure RunsUntil (run : Nat → State) (u : UnitId) (k e : Nat) : Prop where
  le : k ≤ e
  running : ∀ j, k ≤ j → j ≤ e → (run j).status u = some .run
  noReset : ∀ j, k ≤ j → j < e → ¬ ResetTurn (run j)

theorem RunsUntil.trans {run : Nat → State} {u : UnitId} {k j e : Nat} (h₁ : RunsUntil run u k j)
    (hj : ¬ ResetTurn (run j)) (h₂ : RunsUntil run u (j + 1) e) : RunsUntil run u k e := by
  have hle := h₁.le
  have hle' := h₂.le
  refine ⟨by omega, fun i hki hie => ?_, fun i hki hie => ?_⟩
  · rcases Nat.lt_or_ge j i with hi | hi
    · exact h₂.running i hi hie
    · exact h₁.running i hki hi
  · rcases Nat.lt_trichotomy i j with hi | rfl | hi
    · exact h₁.noReset i hki hi
    · exact hj
    · exact h₂.noReset i hi hie

/-- A unit in RUN stays as it is up to its next turn, or up to a reset. -/
theorem Execution.exists_next_turn {run : Nat → State} (hE : Execution run) (hF : UnitsFair run)
    (h0 : BlockInv (run 0)) {k : Nat} {u : UnitId} {l : Lane} (hl : (run k).lane? u = some l)
    (hrun : l.regs.st = .run) :
    ∃ e, RunsUntil run u k e ∧ Disturbs u (run e) ∧ (run e).lane? u = some l ∧
      unitTurns run u e = unitTurns run u k := by
  classical
  have hex := hE.exists_disturbs hF h0 hl hrun
  obtain ⟨hke, hdist⟩ := Nat.find_spec hex
  have hq : ∀ j, k ≤ j → j < Nat.find hex → ¬ Disturbs u (run j) :=
    fun j hkj hj hd => Nat.find_min hex hj ⟨hkj, hd⟩
  obtain ⟨hle, hte⟩ := hE.undisturbed hl hrun hke hq
  refine ⟨Nat.find hex, ⟨hke, fun j hkj hj => ?_, fun j hkj hj hr => hq j hkj hj (.inr hr)⟩,
    hdist, hle, hte⟩
  have hlj := (hE.undisturbed hl hrun hkj fun i hki hij => hq i hki (Nat.lt_of_lt_of_le hij hj)).1
  exact State.status_eq_some_iff.mpr ⟨l, hlj, hrun⟩

/-- How step `e` ends the command that unit `u` runs as `l` at step `k`. -/
inductive CommandEnd (run : Nat → State) (u : UnitId) (l : Lane) (k e : Nat) : Prop
  | reset (h : ResetTurn (run e))
  | fault (ht : Takes (run e) (.unit u)) (hf : (run (e + 1)).status u = some .fault)
      (hw : l.regs.cmd = 0x02#8)
  | done (ht : Takes (run e) (.unit u)) (hi : (run (e + 1)).status u = some .idle)
      (hn : unitTurns run u (e + 1) = unitTurns run u k + stepsLeft u.kind l.regs)
      (hr : (run (e + 1)).responses = (run e).responses ++ [okDelivery u.kind l])

/-- A command that ends, seen from one turn of its unit earlier. -/
theorem CommandEnd.of_next_turn {run : Nat → State} {u : UnitId} {l l' : Lane} {k k' e : Nat}
    (h : CommandEnd run u l' k' e) (hc : SameCommand l l')
    (hs : stepsLeft u.kind l'.regs + 1 = stepsLeft u.kind l.regs)
    (ht : unitTurns run u k' = unitTurns run u k + 1) : CommandEnd run u l k e := by
  cases h with
  | reset h => exact .reset h
  | fault htake hf hw => exact .fault htake hf (hc.cmd.symm.trans hw)
  | done htake hi hn hr => exact .done htake hi (by omega) (hc.okDelivery_eq u.kind ▸ hr)

/-- In a fair execution the command of a unit in RUN ends, by induction on the steps it needs. -/
theorem Execution.exists_commandEnd {run : Nat → State} (hE : Execution run) (hF : UnitsFair run)
    (h0 : BlockInv (run 0)) {k : Nat} {u : UnitId} {l : Lane} (hl : (run k).lane? u = some l)
    (hrun : l.regs.st = .run) : ∃ e, RunsUntil run u k e ∧ CommandEnd run u l k e := by
  obtain ⟨j, hkj, hdist, hlj, htj⟩ := hE.exists_next_turn hF h0 hl hrun
  by_cases hreset : ResetTurn (run j)
  · exact ⟨j, hkj, .reset hreset⟩
  have htake : Takes (run j) (.unit u) := hdist.resolve_right hreset
  have hturns : unitTurns run u (j + 1) = unitTurns run u k + 1 := by
    rw [unitTurns_succ_of_takes htake, htj]
  cases step_runTurn (hE.blockInv h0 j) (hE j) htake hlj hrun with
  | advanced l' hl' hrun' hc hs hr =>
    obtain ⟨e, hje, hend⟩ := hE.exists_commandEnd hF h0 hl' hrun'
    exact ⟨e, hkj.trans hreset hje, hend.of_next_turn hc hs hturns⟩
  | faulted l' hl' hf hk hw =>
    exact ⟨j, hkj, .fault htake (State.status_eq_some_iff.mpr ⟨l', hl', hf⟩) hw⟩
  | ended l' hl' hi hs hr =>
    exact ⟨j, hkj, .done htake (State.status_eq_some_iff.mpr ⟨l', hl', hi⟩) (by omega) hr⟩
termination_by stepsLeft u.kind l.regs
decreasing_by omega

/-! ### A block whose host has nothing more to do (R147) -/

/-- The names of all units there are (R128). -/
def unitIds (s : State) : List UnitId :=
  (List.range s.enc.length).map (UnitId.mk .enc) ++ (List.range s.dec.length).map (UnitId.mk .dec)

theorem mem_unitIds {s : State} {v : UnitId} : v ∈ unitIds s ↔ ∃ l, s.lane? v = some l := by
  obtain ⟨k, i⟩ := v
  rw [← Option.isSome_iff_exists]
  cases k <;> simp [unitIds, State.lane?]

theorem State.mem_enc_append_dec {s : State} {l : Lane} (h : l ∈ s.enc ++ s.dec) :
    ∃ v, s.lane? v = some l := by
  rcases List.mem_append.mp h with h | h
  · exact (State.mem_lanes_iff (k := .enc).mp h).imp' (UnitId.mk .enc) fun _ => id
  · exact (State.mem_lanes_iff (k := .dec).mp h).imp' (UnitId.mk .dec) fun _ => id

theorem not_resetTurn_of_script_nil {s : State} (h : s.script = []) : ¬ ResetTurn s := by
  rintro ⟨-, hs⟩
  simp [h] at hs

theorem exists_decode_of_legalWord {c : Command} (h : LegalWord c.cmd) : ∃ i, decode c = .ok i := by
  cases hd : decode c with
  | ok i => exact ⟨i, rfl⟩
  | error e => exact absurd h (not_legalWord_of_decode_error hd)

/-- There is a point from which the held commands never become fewer: one with the fewest. -/
theorem exists_least_held (run : Nat → State) (k : Nat) :
    ∃ m ≥ k, ∀ j ≥ m, (run m).held.length ≤ (run j).held.length := by
  classical
  have hex : ∃ n, ∃ m ≥ k, (run m).held.length = n := ⟨_, k, Nat.le_refl k, rfl⟩
  obtain ⟨m, hm, hn⟩ := Nat.find_spec hex
  refine ⟨m, hm, fun j hj => ?_⟩
  rw [hn]
  exact Nat.find_min' hex ⟨j, Nat.le_trans hm hj, rfl⟩

section Quiet

variable {run : Nat → State} {m : Nat} (hE : Execution run) (hs : (run m).script = [])
  (hmin : ∀ j ≥ m, (run m).held.length ≤ (run j).held.length)

include hE hs hmin

/-- From such a point on, with nothing more for the host to do, a unit once IDLE stays IDLE. -/
theorem Execution.stays_idle {d : Nat} {v : UnitId} (h : (run (m + d)).status v = some .idle) (x : Nat) :
    (run (m + d + x)).status v = some .idle := by
  obtain ⟨l, hl, hi⟩ := State.status_eq_some_iff.mp h
  exact State.status_eq_some_iff.mpr ⟨l, (hE.quiet hs hmin).2 d v l hl hi x, hi⟩

/-- A unit that never faults is IDLE for ever in the end. -/
theorem Execution.exists_idle (hF : UnitsFair run) (h0 : BlockInv (run 0)) {v : UnitId} {l : Lane}
    (hl : (run m).lane? v = some l) (hnf : ∀ j ≥ m, (run j).status v ≠ some .fault) :
    ∃ d, ∀ x, (run (m + d + x)).status v = some .idle := by
  suffices hidle : ∃ d, (run (m + d)).status v = some .idle from
    hidle.imp fun d hd => hE.stays_idle hs hmin hd
  cases hst : l.regs.st with
  | idle => exact ⟨0, State.status_eq_some_iff.mpr ⟨l, hl, hst⟩⟩
  | fault => exact absurd (State.status_eq_some_iff.mpr ⟨l, hl, hst⟩) (hnf m (Nat.le_refl m))
  | run =>
    obtain ⟨e, hme, hend⟩ := hE.exists_commandEnd hF h0 hl hst
    obtain ⟨d, rfl⟩ := Nat.exists_eq_add_of_le hme.le
    cases hend with
    | reset h => exact absurd h (not_resetTurn_of_script_nil (hE.script_nil hs d))
    | fault _ hf _ => exact absurd hf (hnf (m + d + 1) (by omega))
    | done _ hi _ _ => exact ⟨d + 1, hi⟩

/-- A command held for ever beside a unit of its kind that is IDLE for ever would be handed over. -/
theorem Execution.held_nil (hF : HeldFair run) (hI : BlockInv (run m)) {d : Nat}
    (hidle : ∀ v ∈ unitIds (run m), ∀ x, (run (m + d + x)).status v = some .idle) :
    (run m).held = [] := by
  obtain ⟨held, -⟩ := hE.quiet hs hmin
  by_contra hne
  obtain ⟨c, hc⟩ := List.exists_mem_of_ne_nil _ hne
  obtain ⟨i, hi⟩ := exists_decode_of_legalWord (hI.held_legal c hc)
  have hunits : (run m).lanes (unitKind i) ≠ [] := by
    cases unitKind i
    · exact hI.has_enc
    · exact hI.has_dec
  obtain ⟨l, hl⟩ := State.lanes_ne_nil_iff.mp hunits
  have waiting : ∀ j ≥ m + d, c ∈ (run j).held ∧ (run j).status ⟨unitKind i, 0⟩ = some .idle := by
    intro j hj
    obtain ⟨x, rfl⟩ := Nat.exists_eq_add_of_le hj
    refine ⟨?_, hidle _ (mem_unitIds.mpr ⟨l, hl⟩) x⟩
    rw [Nat.add_assoc, held]
    exact hc
  obtain ⟨j, hj, hover⟩ := hF c i ⟨unitKind i, 0⟩ (m + d) hi rfl waiting
  have hfree : (run j).idleUnits (unitKind i) ≠ [] :=
    List.ne_nil_of_mem (State.mem_idleUnits.mpr (State.status_eq_some_iff.mp (waiting j hj).2))
  have hless := step_handsOver (hE j) hover hi hfree
  obtain ⟨x, rfl⟩ := Nat.exists_eq_add_of_le (Nat.le_trans (Nat.le_add_right m d) hj)
  rw [Nat.add_assoc, held, held] at hless
  exact Nat.lt_irrefl _ hless

end Quiet

/-- A fair execution comes to a final state once the host has nothing more to do, if no unit faults. -/
theorem Execution.exists_final {run : Nat → State} {k : Nat} (hE : Execution run) (hF : WeaklyFair run)
    (h0 : BlockInv (run 0)) (hs : (run k).script = [])
    (hnf : ∀ j ≥ k, ∀ u, (run j).status u ≠ some .fault) : ∃ e ≥ k, Final (run e) := by
  obtain ⟨m, hkm, hmin⟩ := exists_least_held run k
  obtain ⟨x, rfl⟩ := Nat.exists_eq_add_of_le hkm
  have hsm := hE.script_nil hs x
  have each : ∀ v ∈ unitIds (run (k + x)), ∃ d, ∀ y, (run (k + x + d + y)).status v = some .idle := by
    intro v hv
    obtain ⟨l, hl⟩ := mem_unitIds.mp hv
    exact hE.exists_idle hsm hmin hF.units h0 hl fun j hj => hnf j (Nat.le_trans hkm hj) v
  obtain ⟨d, hidle⟩ := exists_all_idle _ each
  have hheld := hE.held_nil hsm hmin hF.held (hE.blockInv h0 _) hidle
  refine ⟨k + x + d, by omega, ((hE.quiet hsm hmin).1 d).trans hheld, fun l hl => ?_⟩
  obtain ⟨v, hv⟩ := State.mem_enc_append_dec hl
  obtain ⟨l₀, hl₀⟩ := hE.lane_back d hv
  obtain ⟨l₁, hl₁, hi⟩ := State.status_eq_some_iff.mp (hidle v (mem_unitIds.mpr ⟨l₀, hl₀⟩) 0)
  rw [Nat.add_zero, hv] at hl₁
  cases hl₁
  exact hi

end Sys2Proof.Machine
end

section
/-! PROOFS. The statements about encoding and dispatch: the decoder against the encoder and the opcode table, what a step runs, holds or waits for, and that accepted commands end in a fair execution. -/

namespace Sys2Proof.Machine

/-! ### Decoding and encoding -/

/-- Settles O2: the word decides the operation, and the operation keeps every operand. -/
theorem decodeExactlyEncodings : Obligations.DecodeExactlyEncodings := by
  unfold Obligations.DecodeExactlyEncodings
  intro c i
  constructor
  · exact eq_encode_of_decode
  · rintro rfl
    exact decode_encode i

/-- Settles O1: each row's tuple is the encoding of its instruction; the fixed words are decided. -/
theorem commandWordsDecode : Obligations.CommandWordsDecode := by
  unfold Obligations.CommandWordsDecode
  refine ⟨fun t n b => ?encode, fun t n b => ?decode, fun t n b => ?decodeS, ?words⟩
  case encode => exact decode_encode (.encode t n b)
  case decode => exact decode_encode (.decode t n b)
  case decodeS => exact decode_encode (.decodeS t n b)
  case words => decide

/-- Settles O3: the decoder refuses exactly the words that are not legal, which the fields tell. -/
theorem illegalWordsByField : Obligations.IllegalWordsByField := by
  unfold Obligations.IllegalWordsByField
  intro w
  exact ⟨(decodeWord_error_iff w).trans (not_legalWord_iff_fields w), decodeWord_error_iff w⟩

/-! ### What a step runs, holds or waits for -/

/-- Settles O5: the host's turn is its next act, and the act runs what the tuple decodes to. -/
theorem stepRunsDecoded : Obligations.StepRunsDecoded := by
  unfold Obligations.StepRunsDecoded
  intro s c i rest ts ht hs hd
  rw [step_host ht]
  simp [hostMove, hs, hd, Move.outcome]

/-- Settles O6: `withFetchWord` puts one issue and one turn of the host in front, and the step takes both. -/
theorem stepRunsTableWord : Obligations.StepRunsTableWord := by
  unfold Obligations.StepRunsTableWord
  intro s nbits w i h
  exact stepRunsDecoded (s.withFetchWord nbits w) _ i s.script s.turns rfl rfl
    (decode_of_decodeTableWord h)

/-- Settles O8, by whether a unit of the command's kind is IDLE. -/
theorem heldCommandHandedOver : Obligations.HeldCommandHandedOver := by
  unfold Obligations.HeldCommandHandedOver
  intro s k c i ts ht hk hd
  have hmove := dispatcherMove_legal (s := { s with turns := ts }) hk hd
  rw [State.idleUnits_mk] at hmove
  rw [step_turn ht]
  exact ⟨fun hi => hmove.trans (if_neg hi), fun hi => hmove.trans (if_pos hi)⟩

/-- Settles O25: every meaning is a dispatch, and a dispatch with no IDLE unit holds the command. -/
theorem heldWhenNoUnitIdle : Obligations.HeldWhenNoUnitIdle := by
  unfold Obligations.HeldWhenNoUnitIdle
  intro i s hi
  rw [exec_eq_submit, submit_held hi]
  rfl

/-- Settles O26: the units offered are exactly the IDLE ones. -/
theorem everyIdleUnitCanBePicked : Obligations.EveryIdleUnitCanBePicked := by
  unfold Obligations.EveryIdleUnitCanBePicked
  intro s k u us hu
  refine ⟨fun i s₁ hp => ?picked, fun i l hl hi => ?reached⟩
  case picked =>
    obtain ⟨hm, hs⟩ := pickUnit_cases hp
    exact ⟨State.mem_idleUnits.mp (hu ▸ hm), hs⟩
  case reached => exact pickUnit_reaches (hu ▸ State.mem_idleUnits.mpr ⟨l, hl, hi⟩) s

/-- Settles O47: the host's turn asks `waitOver`, and each clause says what it finds. -/
theorem waitHoldsTheHost : Obligations.WaitHoldsTheHost := by
  unfold Obligations.WaitHoldsTheHost
  intro s t rest ts ht hs
  rw [step_host ht, hostMove_wait (s := { s with turns := ts }) hs]
  refine ⟨fun hnone => ?waiting, fun hresp hheld hlanes => ?goesOn⟩
  case waiting =>
    refine congrArg Host.Outcome.next (if_neg fun hw => ?_)
    obtain ⟨⟨d, hd, hdt⟩, -⟩ := waitOver_iff.mp hw
    exact hnone d hd hdt
  case goesOn =>
    exact congrArg Host.Outcome.next
      (if_pos (waitOver_iff.mpr ⟨hresp, inFlight_eq_false_iff.mpr ⟨hheld, hlanes⟩⟩))

/-! ### Fair executions -/

/-- Settles O60: a unit in RUN comes to a `CommandEnd`, and a quiet block to a final state. -/
theorem fairExecutionsComplete : Obligations.FairExecutionsComplete := by
  unfold Obligations.FairExecutionsComplete
  intro run hE hF h0
  refine ⟨fun k u l hl hrun => ?ends, fun k hs hnf => hE.exists_final hF h0 hs hnf⟩
  case ends =>
    obtain ⟨e, hke, hend⟩ := hE.exists_commandEnd hF.units h0 hl hrun
    refine ⟨e, hke.le, hke.running, hke.noReset, ?_⟩
    cases hend with
    | reset h => exact .inl h
    | fault ht hf hw => exact .inr (.inl ⟨ht, hf, hw⟩)
    | done ht hi hn hr => exact .inr (.inr ⟨ht, hi, hn, stepsLeft_start, hr⟩)

end Sys2Proof.Machine
end

section
/-! PROOFS. The lookup memory: what FWD and INV hold entry by entry, and from there digitOf and isZ85 by code. -/

namespace Sys2Proof.Machine

/-! ### The entries of the ROMs (R75) -/

/-- FWD has an inverse: `digitOf`. -/
theorem fwd_injective : Function.Injective fwd := by
  intro d e h
  have hd := digitOf_fwd d
  rw [h, digitOf_fwd] at hd
  exact Fin.ext (Option.some.inj hd).symm

theorem fwd_bounds (d : Fin 85) : 0x21 ≤ (fwd d).toNat ∧ (fwd d).toNat ≤ 0x7D := by
  revert d; decide

theorem invLookup_fwd (d : Fin 85) : invLookup (fwd d) = .inRange (0x80#8 ||| BitVec.ofNat 8 d.val) := by
  revert d; decide

theorem count_validField_invRom :
    ((List.range 96).filter (fun a => validField (invRom.getD a 0))).length = 85 := by decide

theorem inv_eq_zero_of_not_valid (a : Fin 96) (h : validField (inv a) = false) : inv a = 0x00#8 := by
  revert a; decide

/-! ### The lookups by code (R72 to R74) -/

theorem inRange_eq_false_iff (c : Byte) : inRange c = false ↔ c.toNat < 32 ∨ 127 < c.toNat := by
  simp only [inRange, Bool.and_eq_false_iff, decide_eq_false_iff_not, Nat.not_le]

theorem exists_invLookup_eq {c : Byte} (hlo : 32 ≤ c.toNat) (hhi : c.toNat ≤ 127) :
    ∃ a, invLookup c = .inRange (inv a) :=
  ⟨_, dif_pos ⟨hlo, hhi⟩⟩

theorem isZ85_iff_exists_fwd (c : Byte) : isZ85 c = true ↔ ∃ d : Fin 85, c = fwd d := by
  constructor
  · intro h
    obtain ⟨d, -, hd⟩ := fwd_of_isZ85 c h
    exact ⟨d, hd.symm⟩
  · rintro ⟨d, rfl⟩
    exact isZ85_fwd d

/-- The INV entry of an unmapped code in range is 0, so its digit is 0. -/
theorem digitOf_of_not_isZ85 {c : Byte} (hlo : 32 ≤ c.toNat) (hhi : c.toNat ≤ 127)
    (hz : isZ85 c = false) : digitOf c = some 0 := by
  obtain ⟨a, ha⟩ := exists_invLookup_eq hlo hhi
  simp only [isZ85, ha] at hz
  simp only [digitOf, ha, inv_eq_zero_of_not_valid a hz]
  rfl

end Sys2Proof.Machine
end

section
/-! PROOFS. The statements about the lookup memory: the six properties of the ROMs, and the lookups of every code. -/

namespace Sys2Proof.Machine

/-- Settles O10, one fact of the ROMs for each item of R75. -/
theorem romProperties : Obligations.RomProperties := by
  unfold Obligations.RomProperties
  exact ⟨fun _ _ h => fwd_injective h, fwd_bounds,
    fun d => ⟨invLookup_fwd d, digitOf_fwd d, isZ85_fwd d⟩,
    fwd_of_isZ85,
    ⟨count_validField_invRom, inv_eq_zero_of_not_valid⟩,
    rfl⟩

/-- Settles O11: a code is out of range, or a character of FWD, or one whose INV entry is 0. -/
theorem lookupByCode : Obligations.LookupByCode := by
  unfold Obligations.LookupByCode
  intro c
  refine ⟨(digitOf_eq_none_iff c).trans (inRange_eq_false_iff c), ?character, ?unmapped,
    isZ85_iff_exists_fwd c⟩
  case character =>
    rintro d rfl
    exact digitOf_fwd d
  case unmapped =>
    intro hlo hhi hne
    refine digitOf_of_not_isZ85 hlo hhi (Bool.eq_false_iff.mpr fun hz => ?_)
    obtain ⟨d, hd⟩ := (isZ85_iff_exists_fwd c).mp hz
    exact hne d hd

end Sys2Proof.Machine
end

section
/-! PROOFS. What the statements about ENCODE need of its values and its ACCEPT step: the characters of a group and of a whole output, the checks, and the next state of an ACCEPT step on the unit picked, for both kinds of unit. -/

namespace Sys2Proof.Machine

/-! ### The characters of a group (R77, R78) -/

/-- `2^32 div 85^4` is 82. -/
theorem digitAt_four_le (v : U32) : (digitAt v 4).val ≤ 82 := by
  have := v.isLt
  simp only [digitAt]
  omega

/-- `$` and `#` are the characters of the digits 83 and 84 (R69). -/
theorem fwd_ne_of_le {d : Fin 85} (h : d.val ≤ 82) : fwd d ≠ 0x24#8 ∧ fwd d ≠ 0x23#8 := by
  have hdollar : (0x24#8 : Byte) = fwd 83 := by decide
  have hhash : (0x23#8 : Byte) = fwd 84 := by decide
  rw [hdollar, hhash, fwd_injective.ne_iff, fwd_injective.ne_iff, Fin.ne_iff_vne, Fin.ne_iff_vne]
  exact ⟨(h.trans_lt (by decide)).ne, (h.trans_lt (by decide)).ne⟩

/-- The characters give the digits back, and the digits the value. -/
theorem encGroup_injective : Function.Injective encGroup := by
  intro v w h
  simp only [encGroup, List.cons.injEq, fwd_injective.eq_iff, and_true] at h
  obtain ⟨h4, h3, h2, h1, h0⟩ := h
  apply BitVec.eq_of_toNat_eq
  rw [← digitAt_sum v, ← digitAt_sum w, h4, h3, h2, h1, h0]

theorem encGroup_getElem? (v : U32) {j : Nat} (hj : j < 5) :
    (encGroup v)[j]? = some (fwd (digitAt v (4 - j))) := by
  match j, hj with
  | 0, _ | 1, _ | 2, _ | 3, _ | 4, _ => rfl

/-- An encoder emits alphabet characters only (R87). -/
theorem exists_fwd_of_mem_encBytes {bs : List Byte} {c : Byte} (h : c ∈ encBytes bs) :
    ∃ d : Fin 85, c = fwd d := by
  induction bs using encBytes.induct with
  | case1 b0 b1 b2 b3 rest ih =>
    rw [encBytes, List.mem_append] at h
    rcases h with h | h
    · simp only [encGroup, List.mem_cons, List.not_mem_nil, or_false] at h
      rcases h with h | h | h | h | h <;> exact ⟨_, h⟩
    · exact ih h
  | case2 bs hne =>
    rw [encBytes] at h
    · cases h
    · exact hne

theorem outLen_enc_eq {n : Nat} (h : n % 4 = 0) : outLen .enc n = 5 * n / 4 := by
  simp only [outLen, groupOut, groupIn]
  omega

/-- ENCODE of a positive number of whole groups with GRANT (R80). -/
theorem z85enc_granted {n : Nat} {bs : List Byte} (hl : bs.length = n) (h : n % 4 = 0) (hpos : 0 < n) :
    z85enc n bs .grant = .answer .ok (5 * n / 4) 0 (encBytes bs) := by
  have hwhole : bs.take n = bs := List.take_of_length_le hl.le
  simp [z85enc, h, Nat.ne_of_gt hpos, hwhole]

/-! ### ACCEPT on the unit picked, by what its checks came to (R81, R97) -/

theorem verdictOf_encode_badLength {n : Nat} (h : n % 4 ≠ 0) (tid : Nat) (bs : List Byte) :
    verdictOf (.encode tid n bs) = .answer .errLength (n % 4) := by
  simp [verdictOf, encVerdict, encode, Instr.len, lenOk, groupIn, h]

theorem verdictOf_encode_empty (tid : Nat) (bs : List Byte) :
    verdictOf (.encode tid 0 bs) = .answer .ok 0 := rfl

theorem verdictOf_encode_ask {n : Nat} (h : n % 4 = 0) (hpos : 0 < n) (tid : Nat) (bs : List Byte) :
    verdictOf (.encode tid n bs) = .ask (5 * n / 4) := by
  rw [← outLen_enc_eq h]
  simp [verdictOf, encVerdict, encode, Instr.len, lenOk, groupIn, lastChecks, h, Nat.ne_of_gt hpos]

/-- Picking a unit and asking for a buffer change the host's draws only (R64, R118). -/
theorem pick_allocate_frame {s s₁ s₂ : State} {u j tid : Nat} {us : List Nat} {a : Alloc}
    (hp : pickUnit u us s = (j, s₁)) (ha : allocate tid s₁ = (a, s₂)) :
    s₂ = { s with picks := s₁.picks, answers := s₂.answers, draws := s₂.draws } := by
  rw [allocate_cases ha, (pickUnit_cases hp).2]

section Picked

variable {i : Instr} {s s₁ s₂ : State} {u j n : Nat} {us : List Nat}
  (hi : s.idleUnits (unitKind i) = u :: us) (hp : pickUnit u us s = (j, s₁))

include hi hp

theorem exec_answered {st : Status} {x : Nat} (hv : verdictOf i = .answer st x) :
    exec i s = .next (answerNow i.tid st x s₁) := by
  rw [exec_eq_submit, submit_picked hi hp, hv]
  rfl

theorem exec_denied (hv : verdictOf i = .ask n) (ha : allocate i.tid s₁ = (.deny, s₂)) :
    exec i s = .next (answerNow i.tid .errAlloc n s₂) := by
  have ha' : allocate (encode i).tid s₁ = (.deny, s₂) := ha
  rw [exec_eq_submit, submit_picked hi hp, hv]
  simp only [accept, ha']
  rfl

theorem exec_granted (hv : verdictOf i = .ask n) (ha : allocate i.tid s₁ = (.grant, s₂)) :
    ∃ l, s.lane? ⟨unitKind i, j⟩ = some l ∧ l.regs.st = .idle ∧
      s₂.lane? ⟨unitKind i, j⟩ = some l ∧
      exec i s = .next (s₂.setLane ⟨unitKind i, j⟩ (l.start (encode i) n)) := by
  have ha' : allocate (encode i).tid s₁ = (.grant, s₂) := ha
  obtain ⟨l, hl, hidle, hl₁⟩ := pickUnit_lane hi hp
  have hl₂ : s₂.lane? ⟨unitKind i, j⟩ = some l := (allocate_lane? ha _).trans hl₁
  refine ⟨l, hl, hidle, hl₂, ?_⟩
  rw [exec_eq_submit, submit_picked hi hp, hv]
  simp only [accept, ha', startUnit_lane hl₂]

end Picked

end Sys2Proof.Machine
end

section
/-! PROOFS. How the turns of one unit take a command from its start to its OK response, for both kinds of unit: which steps are enabled in RUN, what one turn does when no element faults, and the turns of a whole command. -/

namespace Sys2Proof.Machine

/-! ### Which steps are enabled in RUN (R85, R101) -/

/-- The three phases of a RUN unit exclude each other, and R26 shuts out any other. -/
theorem Running.enabled_cases {k : UnitKind} {l : Lane} (h : Running k l) (hrun : l.regs.st = .run) :
    (l.regs.ph.toNat < groupIn k ∧ l.regs.ip < l.regs.n) ∨ l.regs.ph.toNat = groupIn k ∨
      (l.regs.ph.toNat = 0 ∧ l.regs.ip = l.regs.n) := by
  obtain ⟨hacc, hemit, hdone⟩ := phase_cases k l.regs
  cases hp : phase k l.regs with
  | acc => exact .inl (hacc.mp hp).2
  | emit => exact .inr (.inl (hemit.mp hp).2)
  | done => exact .inr (.inr (hdone.mp hp).2)
  | stuck => exact absurd hp (h.phase_ne_stuck hrun)

/-! ### A command without a fault, turn by turn (R85, R101, R144) -/

/-- Every element of the command is there, and has a digit if the unit is a decoder: no ACC step stops
or faults (R59, R98). -/
def Readable (k : UnitKind) (l : Lane) : Prop :=
  ∀ j < l.regs.n, ∃ b, l.inp.read j = some b ∧ (k = .dec → inRange b = true)

/-- The unit after the DONE step of the command it runs (R84, R100). -/
def Lane.ended (k : UnitKind) (l : Lane) : Lane :=
  { regs := { l.regs with st := .idle, ip := l.regs.n, opos := outLen k l.regs.n, ph := 0#3,
                          acc := 0#32 },
    inp := .absent, out := .absent }

/-- At the DONE step of a running unit, `Lane.finish` gives the whole output. -/
theorem Running.finish_eq {k : UnitKind} {l : Lane} (h : Running k l) (hp : l.regs.ph = 0#3)
    (hi : l.regs.ip = l.regs.n) : l.finish = .done (l.ended k) (okDelivery k l) := by
  have hzero : l.regs.ph.toNat = 0 := by rw [hp]; rfl
  obtain ⟨hopos, hout⟩ := h.done hzero hi
  simp only [Lane.finish, Lane.ended, okDelivery, hopos, hout, hi, hp, h.acc_zero hzero]

/-- What the step of a RUN unit is when its next element can be read: one step nearer the same end, or
that end. -/
inductive CleanStep (k : UnitKind) (l : Lane) : UnitStep → Prop
  | advanced (l' : Lane) (hR : Running k l') (hrun : l'.regs.st = .run) (hc : SameCommand l l')
      (he : l'.ended k = l.ended k) (hs : stepsLeft k l'.regs + 1 = stepsLeft k l.regs) :
      CleanStep k l (.moved l')
  | ended (hs : stepsLeft k l.regs = 1) : CleanStep k l (.done (l.ended k) (okDelivery k l))

/-- An ACC step whose element has a value, or a digit, adds it. -/
theorem unitStep_acc_moved {k : UnitKind} {l : Lane} {b : Byte} (hp : phase k l.regs = .acc)
    (hb : l.inp.read l.regs.ip = some b) (hd : k = .dec → inRange b = true) :
    ∃ a, unitStep k l = .moved (l.accumulated a) ∧
      ((k = .enc ∧ a = accByte l.regs.acc b) ∨
        (k = .dec ∧ ∃ d, digitOf b = some d ∧ a = accDigit l.regs.acc d)) := by
  cases k with
  | enc => exact ⟨_, unitStep_acc_enc hp hb, .inl ⟨rfl, rfl⟩⟩
  | dec =>
    obtain ⟨d, hd, -⟩ := exists_digit_of_inRange (hd rfl)
    exact ⟨_, unitStep_acc_dec hp hb hd, .inr ⟨rfl, d, hd, rfl⟩⟩

theorem Running.cleanStep {k : UnitKind} {l : Lane} (h : Running k l) (hrun : l.regs.st = .run)
    (hr : l.regs.ip < l.regs.n →
      ∃ b, l.inp.read l.regs.ip = some b ∧ (k = .dec → inRange b = true)) :
    CleanStep k l (unitStep k l) := by
  rcases h.enabled_cases hrun with ⟨hph, hip⟩ | hph | ⟨hph, hip⟩
  · obtain ⟨b, hb, hd⟩ := hr hip
    obtain ⟨a, hstep, ha⟩ := unitStep_acc_moved (phase_acc hrun hph hip) hb hd
    rw [hstep]
    exact .advanced _ (h.accumulated hph hip hb ha) hrun ⟨rfl, rfl, rfl, rfl⟩ rfl
      (stepsLeft_accumulated a hph hip)
  · have hw := h.writeAll_emit hph
    rw [unitStep_emit (phase_emit hrun hph), Lane.emit, hw, emitBytes_length]
    exact .advanced _ (h.emitted hph hw) hrun ⟨rfl, rfl, rfl, rfl⟩ rfl
      (stepsLeft_emitted hph h.ph_le_ip h.ip_le _ _)
  · rw [unitStep_done (phase_done hrun hph hip), h.finish_eq (BitVec.eq_of_toNat_eq hph) hip]
    exact .ended (stepsLeft_done hph hip)

theorem Readable.of_sameCommand {k : UnitKind} {l l' : Lane} (h : Readable k l) (hc : SameCommand l l') :
    Readable k l' := by
  unfold Readable
  rw [hc.n, hc.inp]
  exact h

/-! ### The turns of one unit, from the start of a command to its end -/

/-- The block once unit `u` has ended the command of `l`, with the turns `ts` left: the unit IDLE, its
OK response added, everything else as in `s`. -/
def State.completed (u : UnitId) (l : Lane) (ts : List Agent) (s : State) : State :=
  (({ s with turns := ts } : State).setLane u (l.ended u.kind)).respond
    (okDelivery u.kind l).resp (okDelivery u.kind l).out

/-- The state a turn of `u` has left in the unit itself does not show once the command has ended. -/
theorem State.completed_setLane (u : UnitId) (l l' : Lane) (ts ts' : List Agent) (s : State) :
    (({ s with turns := ts' } : State).setLane u l').completed u l ts = s.completed u l ts := by
  obtain ⟨k, i⟩ := u
  cases k <;> simp [State.completed, State.setLane, State.setLanes]

theorem State.completed_congr {u : UnitId} {l l' : Lane} (he : l'.ended u.kind = l.ended u.kind)
    (hc : SameCommand l l') (ts : List Agent) (s : State) : s.completed u l' ts = s.completed u l ts := by
  rw [State.completed, he, hc.okDelivery_eq, State.completed]

theorem core_run_succ {s t : State} (h : step s = .next t) (m : Nat) :
    core.run (m + 1) s = core.run m t := by
  simp only [Host.Core.run, core, h]

/-- A unit with as many turns as its command still has steps ends it with the last of them, and no
response comes sooner (R144). -/
theorem run_completed {u : UnitId} {rest : List Agent} {m : Nat} {s : State} {l : Lane}
    (hR : Running u.kind l) (hrun : l.regs.st = .run) (hread : Readable u.kind l)
    (hl : s.lane? u = some l) (hm : stepsLeft u.kind l.regs = m)
    (ht : s.turns = List.replicate m (.unit u) ++ rest) :
    core.run m s = .next (s.completed u l rest) ∧
      ∀ k < m, ∃ w : State, core.run k s = .next w ∧ w.responses = s.responses := by
  induction m generalizing s l with
  | zero => simp [stepsLeft] at hm
  | succ m ih =>
    rw [List.replicate_succ, List.cons_append] at ht
    have hstep := hR.cleanStep hrun (fun hip => hread _ hip)
    generalize hus : unitStep u.kind l = us at hstep
    cases hstep with
    | advanced l' hR' hrun' hc he hs =>
      have hnext := step_unit_moved ht hl hus
      have hl₀ : ({ s with turns := List.replicate m (.unit u) ++ rest } : State).lane? u = some l :=
        (State.lane?_congr rfl rfl u).trans hl
      obtain ⟨hend, hbefore⟩ := ih hR' hrun' (hread.of_sameCommand hc) (State.lane?_setLane_self hl₀)
        (by omega) (State.setLane_turns _ _ _)
      rw [State.completed_congr he hc, State.completed_setLane] at hend
      refine ⟨(core_run_succ hnext m).trans hend, fun k hk => ?_⟩
      cases k with
      | zero => exact ⟨s, rfl, rfl⟩
      | succ k =>
        obtain ⟨w, hw, hresp⟩ := hbefore k (by omega)
        exact ⟨w, (core_run_succ hnext k).trans hw, by simpa using hresp⟩
    | ended hs =>
      obtain rfl : m = 0 := by omega
      refine ⟨(core_run_succ (step_unit_done ht hl hus) 0).trans rfl, fun k hk => ?_⟩
      obtain rfl : k = 0 := by omega
      exact ⟨s, rfl, rfl⟩

/-- A command that starts on a supplied input can be read to its end. -/
theorem readable_start {c : Command} (hl : c.input.length = c.len) {k : UnitKind}
    (hd : k = .dec → ∀ b ∈ c.input, inRange b = true) (n : Nat) (l : Lane) : Readable k (l.start c n) := by
  intro j hj
  have hj' : j < c.input.length := by simpa [hl] using hj
  refine ⟨c.input[j], ?_, fun hk => hd hk _ (List.getElem_mem hj')⟩
  simp [Memory.read_ofBytes, hl ▸ hj']

/-- The OK response of a command that has just started: its output is that of the whole input. -/
theorem okDelivery_start {c : Command} (hl : c.input.length = c.len) (k : UnitKind) (n : Nat) (l : Lane) :
    okDelivery k (l.start c n) =
      { resp := { tid := c.tid, status := .ok, outLen := outLen k c.len, info := 0 },
        out := Memory.ofBytes (outLen k c.len) (groupBytes k c.input) } := by
  have hfirst : (Memory.ofBytes c.len c.input).first c.len = c.input := by
    rw [← hl, Memory.first_ofBytes le_rfl, List.take_length]
  simp only [okDelivery, Lane.start_tid, Lane.start_n, Lane.start_inp, hfirst]

/-- A command that is granted its buffer runs to its OK response in the turns of the unit picked, if no
element of its input makes a decoder fault (R85, R101, R144). -/
theorem exec_run_completed {i : Instr} {s s₁ s₂ : State} {u j n : Nat} {us : List Nat} {rest : List Agent}
    (hi : s.idleUnits (unitKind i) = u :: us) (hp : pickUnit u us s = (j, s₁)) (hw : i.WellFormed)
    (hv : verdictOf i = .ask n) (ha : allocate i.tid s₁ = (.grant, s₂))
    (hd : unitKind i = .dec → ∀ b ∈ i.input, inRange b = true)
    (ht : s.turns =
      List.replicate (i.len + i.len / groupIn (unitKind i) + 1) (.unit ⟨unitKind i, j⟩) ++ rest) :
    ∃ (l : Lane) (t : State), s.lane? ⟨unitKind i, j⟩ = some l ∧ exec i s = .next t ∧
      core.run (i.len + i.len / groupIn (unitKind i) + 1) t =
        .next (s₂.completed ⟨unitKind i, j⟩ (l.start (encode i) n) rest) ∧
      ∀ k < i.len + i.len / groupIn (unitKind i) + 1, ∃ w : State, core.run k t = .next w ∧
        w.responses = s.responses := by
  obtain ⟨l, hl, -, hl₂, hexec⟩ := exec_granted hi hp hv ha
  have hframe := pick_allocate_frame hp ha
  have hturns : s₂.turns = s.turns := by rw [hframe]
  have hresp : s₂.responses = s.responses := by rw [hframe]
  have hR : Running (unitKind i) (l.start (encode i) n) := by
    have hc := verdictOf_cases i
    rw [hv] at hc
    cases hc with
    | ask hlen hpos hs => exact Running.start l hlen rfl
  obtain ⟨hend, hbefore⟩ := run_completed (u := ⟨unitKind i, j⟩) hR rfl (readable_start hw hd n l)
    (State.lane?_setLane_self hl₂) (stepsLeft_start rfl)
    ((State.setLane_turns _ _ _).trans (hturns.trans ht))
  refine ⟨l, _, hl, hexec, ?_, fun k hk => ?_⟩
  · exact hend.trans (congrArg _ (State.completed_setLane _ _ _ _ s₂.turns s₂))
  · obtain ⟨w, hw, hr⟩ := hbefore k hk
    exact ⟨w, hw, hr.trans ((State.setLane_responses _ _ _).trans hresp)⟩

end Sys2Proof.Machine
end

section
/-! PROOFS. The statements about the encoder: its group function and its output, the ACCEPT, ACC, EMIT and DONE steps, the progress of every turn, and a whole ENCODE. -/

namespace Sys2Proof.Machine

/-- Settles O13: the digits are those of the base-85 representation, and a 32-bit value bounds the
first. -/
theorem encGroupDigits : Obligations.EncGroupDigits := by
  unfold Obligations.EncGroupDigits
  refine ⟨fun v => ?_, fun v w h => encGroup_injective h⟩
  obtain ⟨hdollar, hhash⟩ := fwd_ne_of_le (digitAt_four_le v)
  exact ⟨_, _, _, _, _, rfl, digitAt_four_le v, hdollar, hhash, (digitAt_sum v).symm⟩

/-- Settles O19: an OK result is that of the empty command, or the characters of whole groups. -/
theorem encodeLengthAndAlphabet : Obligations.EncodeLengthAndAlphabet := by
  unfold Obligations.EncodeLengthAndAlphabet
  intro n b m x t hl hmod h
  rcases Nat.eq_zero_or_pos n with rfl | hpos
  · cases h
    exact ⟨rfl, rfl, by simp⟩
  · rw [z85enc_granted hl hmod hpos] at h
    cases h
    refine ⟨rfl, ?_, fun c hc => exists_fwd_of_mem_encBytes hc⟩
    rw [encBytes_length, hl]
    omega

/-- Settles O22: the checks of ENCODE come to an answer or to a request, which the host's answer
decides. -/
theorem encodeAccepts : Obligations.EncodeAccepts := by
  unfold Obligations.EncodeAccepts
  intro s s1 s2 u us i tid len input hi hp
  refine ⟨fun hmod => ?badLength, ?empty, fun hmod hpos ha => ?deny, fun hmod hpos ha => ?grant⟩
  case badLength =>
    exact exec_answered (i := .encode tid len input) hi hp (verdictOf_encode_badLength hmod tid input)
  case empty =>
    rintro rfl
    exact exec_answered (i := .encode tid 0 input) hi hp (verdictOf_encode_empty tid input)
  case deny =>
    exact exec_denied (i := .encode tid len input) hi hp (verdictOf_encode_ask hmod hpos tid input) ha
  case grant =>
    obtain ⟨l, hl, hidle, -, hexec⟩ :=
      exec_granted (i := .encode tid len input) hi hp (verdictOf_encode_ask hmod hpos tid input) ha
    exact ⟨l, hl, hidle, hexec⟩

/-- Settles O29: with fewer than four bytes in it the accumulator has room for one more. -/
theorem encoderAccStep : Obligations.EncoderAccStep := by
  unfold Obligations.EncoderAccStep
  intro s u ts l b ht hl hrun hph hip hb
  refine ⟨step_unit_moved ht hl (unitStep_acc_enc (phase_acc hrun hph hip) hb), fun hacc => ?_⟩
  have hlt := acc_bound hacc b.isLt
  have hroom : 256 ^ (l.regs.ph.toNat + 1) ≤ 2 ^ 32 :=
    Nat.pow_le_pow_right (n := 256) (by decide) (show l.regs.ph.toNat + 1 ≤ 4 from hph)
  exact ⟨hlt, (BitVec.toNat_ofNat _ _).trans (Nat.mod_eq_of_lt (hlt.trans_le hroom))⟩

/-- Settles O30: EMIT is one run of writes, inside the buffer by the room there is. -/
theorem encoderEmitStep : Obligations.EncoderEmitStep := by
  unfold Obligations.EncoderEmitStep
  intro s u ts l ht hl hrun hph hroom
  obtain ⟨m, hm, hstep⟩ := unitStep_emit_moved (k := .enc) (phase_emit hrun hph) hroom
  obtain ⟨-, hsize, hwritten, hother⟩ := Memory.writeAll_cases hm
  refine ⟨m, step_unit_moved ht hl hstep, hsize, Memory.writeAll_wf hm, fun j hj => ?_, hother⟩
  exact (hwritten j hj).trans (encGroup_getElem? l.regs.acc hj)

/-- Settles O31: DONE is `Lane.finish`, and `opos` there is the output length by R26. -/
theorem encoderDoneStep : Obligations.EncoderDoneStep := by
  unfold Obligations.EncoderDoneStep
  intro s u ts l ht hl hrun hph hip
  refine ⟨step_unit_done ht hl (unitStep_done (phase_done hrun hph hip)), fun hI => ?_⟩
  have hinv : LaneInv .enc l := hI.laneInv (v := ⟨.enc, u⟩) hl
  obtain ⟨hR, -⟩ := (laneInv_run_iff hrun).mp hinv
  rw [(hR.done hph hip).1, outLen_enc_eq hR.len_ok]

/-- Settles O52: `ph` and `ip` tell the three conditions apart, and R26 leaves no fourth case. -/
theorem oneStepEnabledInRun : Obligations.OneStepEnabledInRun := by
  unfold Obligations.OneStepEnabledInRun
  intro s u l hI hl hrun
  obtain ⟨hR, -⟩ := (laneInv_run_iff hrun).mp (hI.laneInv hl)
  have hpos := groupIn_pos u.kind
  exact ⟨hR.enabled_cases hrun, by omega, by omega, by omega, unitEnabled_of_run hI hl hrun⟩

/-- Settles O54: the three ways a turn of a RUN unit can go. -/
theorem everyTurnProgresses : Obligations.EveryTurnProgresses := by
  unfold Obligations.EveryTurnProgresses
  intro s t u l l' hI h ha hl hrun hl'
  cases step_runTurn hI h ha hl hrun with
  | advanced l₁ hl₁ hrun₁ _ hs hr =>
    obtain rfl : l₁ = l' := Option.some.inj (hl₁.symm.trans hl')
    exact .inl ⟨hrun₁, hs, hr⟩
  | ended l₁ hl₁ hidle hs hr =>
    obtain rfl : l₁ = l' := Option.some.inj (hl₁.symm.trans hl')
    exact .inr (.inl ⟨hidle, hs, _, hr⟩)
  | faulted l₁ hl₁ hf hk hw hr =>
    obtain rfl : l₁ = l' := Option.some.inj (hl₁.symm.trans hl')
    exact .inr (.inr ⟨hf, hk, hw, hr⟩)

/-- Settles O55: the ACCEPT step starts the command, and its unit's turns are exactly the steps it
needs. -/
theorem encodeRunsToZ85enc : Obligations.EncodeRunsToZ85enc := by
  unfold Obligations.EncodeRunsToZ85enc
  intro s s1 s2 u us i tid len input rest hlen hmod hpos hi hp ha ht
  obtain ⟨l, t, hl, hexec, hend, hbefore⟩ := exec_run_completed (i := .encode tid len input) hi hp hlen
    (verdictOf_encode_ask hmod hpos tid input) ha nofun ht
  refine ⟨l, t, hl, hexec, z85enc_granted hlen hmod hpos, hend.trans ?_, hbefore⟩
  have hresp : s2.responses = s.responses := by rw [pick_allocate_frame hp ha]
  have hout := outLen_enc_eq hmod
  rw [State.completed, okDelivery_start (c := encode (.encode tid len input)) hlen, ← hresp, ← hout]
  rfl

end Sys2Proof.Machine
end

section
/-! PROOFS. What the statements about decoding need of its values: the groups that encGroup makes are the canonical ones, the round trips of whole sequences, and Z85dec with GRANT. -/

namespace Sys2Proof.Machine

/-! ### One group (R89 to R93) -/

/-- The value of five codes is the base-85 sum of their digits, below `85^5` (R89). -/
theorem decVal_of_digits {c0 c1 c2 c3 c4 : Byte} {d0 d1 d2 d3 d4 : Nat} (h0 : digitOf c0 = some d0)
    (h1 : digitOf c1 = some d1) (h2 : digitOf c2 = some d2) (h3 : digitOf c3 = some d3)
    (h4 : digitOf c4 = some d4) :
    decVal c0 c1 c2 c3 c4 = some (d0 * 85 ^ 4 + d1 * 85 ^ 3 + d2 * 85 ^ 2 + d3 * 85 + d4) ∧
      d0 * 85 ^ 4 + d1 * 85 ^ 3 + d2 * 85 ^ 2 + d3 * 85 + d4 ≤ 4437053124 := by
  have b0 := digitOf_lt c0 d0 h0
  have b1 := digitOf_lt c1 d1 h1
  have b2 := digitOf_lt c2 d2 h2
  have b3 := digitOf_lt c3 d3 h3
  have b4 := digitOf_lt c4 d4 h4
  exact ⟨by simp [decVal, h0, h1, h2, h3, h4], by omega⟩

/-- Five accumulations wrap as one (R91). -/
theorem accDigit_five (d0 d1 d2 d3 d4 : Nat) :
    accDigit (accDigit (accDigit (accDigit (accDigit 0#32 d0) d1) d2) d3) d4 =
      wrap32 (d0 * 85 ^ 4 + d1 * 85 ^ 3 + d2 * 85 ^ 2 + d3 * 85 + d4) := by
  rw [show (0#32 : U32) = wrap32 0 from rfl]
  simp only [accDigit_wrap32]
  exact congrArg wrap32 (by omega)

/-- A digit string that is a 32-bit value has the digits encGroup takes from that value (R77). -/
theorem digitAt_of_sum {v : U32} {d0 d1 d2 d3 d4 : Fin 85}
    (h : d0.val * 85 ^ 4 + d1.val * 85 ^ 3 + d2.val * 85 ^ 2 + d3.val * 85 + d4.val = v.toNat) :
    digitAt v 4 = d0 ∧ digitAt v 3 = d1 ∧ digitAt v 2 = d2 ∧ digitAt v 1 = d3 ∧ digitAt v 0 = d4 := by
  simp only [digitAt, Fin.ext_iff, ← h]
  omega

/-- A group that encGroup makes of `v` has the value `v`. -/
theorem decVal_of_encGroup_eq {v : U32} {c0 c1 c2 c3 c4 : Byte} (h : encGroup v = [c0, c1, c2, c3, c4]) :
    decVal c0 c1 c2 c3 c4 = some v.toNat := by
  cases h
  rw [decVal_fwd, digitAt_sum]

theorem canonicalGroup_iff_exists_encGroup (c0 c1 c2 c3 c4 : Byte) :
    CanonicalGroup c0 c1 c2 c3 c4 ↔ ∃ v : U32, encGroup v = [c0, c1, c2, c3, c4] := by
  constructor
  · rintro ⟨⟨h0, h1, h2, h3, h4⟩, v, hv, hle⟩
    obtain ⟨d0, -, rfl⟩ := fwd_of_isZ85 c0 h0
    obtain ⟨d1, -, rfl⟩ := fwd_of_isZ85 c1 h1
    obtain ⟨d2, -, rfl⟩ := fwd_of_isZ85 c2 h2
    obtain ⟨d3, -, rfl⟩ := fwd_of_isZ85 c3 h3
    obtain ⟨d4, -, rfl⟩ := fwd_of_isZ85 c4 h4
    rw [decVal_fwd, Option.some.injEq] at hv
    have hval : (wrap32 v).toNat = v := (wrap32_toNat v).trans (Nat.mod_eq_of_lt (by omega))
    obtain ⟨e0, e1, e2, e3, e4⟩ := digitAt_of_sum (hv.trans hval.symm)
    exact ⟨wrap32 v, by rw [encGroup, e0, e1, e2, e3, e4]⟩
  · rintro ⟨v, hv⟩
    have hval := decVal_of_encGroup_eq hv
    have hlt := v.isLt
    cases hv
    exact ⟨⟨isZ85_fwd _, isZ85_fwd _, isZ85_fwd _, isZ85_fwd _, isZ85_fwd _⟩, _, hval, by omega⟩

/-- A group is canonical exactly when encGroup gives it back from its own value (R93). -/
theorem canonicalGroup_iff_of_decVal {c0 c1 c2 c3 c4 : Byte} {v : Nat} (hv : decVal c0 c1 c2 c3 c4 = some v) :
    CanonicalGroup c0 c1 c2 c3 c4 ↔ encGroup (wrap32 v) = [c0, c1, c2, c3, c4] := by
  rw [canonicalGroup_iff_exists_encGroup]
  refine ⟨fun ⟨w, hw⟩ => ?_, fun h => ⟨_, h⟩⟩
  obtain rfl : w.toNat = v := Option.some.inj ((decVal_of_encGroup_eq hw).symm.trans hv)
  rwa [wrap32_of_toNat]

/-! ### The round trips (R102) -/

/-- An encoder's output is made of codes both policies let pass. -/
theorem isZ85_of_mem_encBytes {bs : List Byte} {c : Byte} (h : c ∈ encBytes bs) : isZ85 c = true :=
  (isZ85_iff_exists_fwd c).mpr (exists_fwd_of_mem_encBytes h)

theorem decBytes_encBytes {bs : List Byte} (h : bs.length % 4 = 0) : decBytes (encBytes bs) = bs := by
  induction bs using encBytes.induct with
  | case1 b0 b1 b2 b3 rest ih =>
    have hrest : rest.length % 4 = 0 := by simp only [List.length_cons] at h; omega
    obtain ⟨c0, c1, c2, c3, c4, hg, hd⟩ := decGroup_encGroup (be32 b0 b1 b2 b3)
    simp [encBytes, hg, decBytes, hd, bytesOf_be32, ih hrest]
  | case2 bs hne =>
    match bs, h, hne with
    | [], _, _ => simp [encBytes, decBytes]
    | [_], h, _ => simp at h
    | [_, _], h, _ => simp at h
    | [_, _, _], h, _ => simp at h
    | a :: b :: c :: d :: r, _, hne => exact absurd rfl (hne a b c d r)

/-- Encoding the bytes of a group's value gives the group of that value, before the rest. -/
theorem encBytes_bytesOf_append (v : U32) (bs : List Byte) :
    encBytes (bytesOf v ++ bs) = encGroup v ++ encBytes bs := by
  obtain ⟨b0, b1, b2, b3, hb, hv⟩ := be32_bytesOf v
  simp only [hb, List.cons_append, List.nil_append, encBytes, hv]

/-- A text comes back from its bytes exactly when each of its groups does. -/
theorem encBytes_decBytes_eq_iff {t : List Byte} (h : t.length % 5 = 0)
    (hr : ∀ c ∈ t, inRange c = true) : encBytes (decBytes t) = t ↔ CanonicalText t := by
  induction t using decBytes.induct with
  | case1 c0 c1 c2 c3 c4 rest bs hg ih =>
    have hrest : rest.length % 5 = 0 := by simp only [List.length_cons] at h; omega
    obtain ⟨v, hv, hd⟩ := decGroup_of_inRange (hr c0 (by simp)) (hr c1 (by simp)) (hr c2 (by simp))
      (hr c3 (by simp)) (hr c4 (by simp))
    have hsplit : c0 :: c1 :: c2 :: c3 :: c4 :: rest = [c0, c1, c2, c3, c4] ++ rest := rfl
    rw [CanonicalText, canonicalGroup_iff_of_decVal hv, ← ih hrest (fun c hc => hr c (by simp [hc])),
      decBytes, hd, hsplit, encBytes_bytesOf_append]
    exact ⟨fun e => List.append_inj e rfl, fun ⟨eg, er⟩ => congrArg₂ (· ++ ·) eg er⟩
  | case2 c0 c1 c2 c3 c4 rest hg =>
    obtain ⟨v, -, hd⟩ := decGroup_of_inRange (hr c0 (by simp)) (hr c1 (by simp)) (hr c2 (by simp))
      (hr c3 (by simp)) (hr c4 (by simp))
    rw [hd] at hg
    cases hg
  | case3 t hne =>
    match t, h, hne with
    | [], _, _ => simp [decBytes, encBytes, CanonicalText]
    | [_], h, _ => simp at h
    | [_, _], h, _ => simp at h
    | [_, _, _], h, _ => simp at h
    | [_, _, _, _], h, _ => simp at h
    | a :: b :: c :: d :: e :: r, _, hne => exact absurd rfl (hne a b c d e r)

/-! ### Z85enc and Z85dec with GRANT (R80, R94) -/

/-- ENCODE of any number of whole groups with GRANT, none included. -/
theorem z85enc_whole {n : Nat} {bs : List Byte} (hl : bs.length = n) (h : n % 4 = 0) :
    z85enc n bs .grant = .answer .ok (5 * n / 4) 0 (encBytes bs) := by
  rcases Nat.eq_zero_or_pos n with rfl | hpos
  · rw [List.length_eq_zero_iff.mp hl, encBytes]
    · rfl
    · nofun
  · exact z85enc_granted hl h hpos

/-- The empty text is no special case once the buffer is granted. -/
theorem z85decChecked_granted {n : Nat} {t : List Byte} (hl : t.length = n) :
    z85decChecked n t .grant = z85decRun n t := by
  rcases Nat.eq_zero_or_pos n with rfl | hpos
  · rw [List.length_eq_zero_iff.mp hl]
    decide
  · simp [z85decChecked, Nat.ne_of_gt hpos]

theorem z85decRun_of_inRange {n : Nat} {t : List Byte} (hl : t.length = n)
    (hr : ∀ c ∈ t, inRange c = true) :
    z85decRun n t = .answer .ok (4 * n / 5) 0 (decBytes t) := by
  have hwhole : t.take n = t := List.take_of_length_le hl.le
  simp only [z85decRun, hwhole, firstBad_none.mpr hr]

/-- A decode with GRANT of whole groups of codes in range, each an alphabet character if the policy is
strict. -/
theorem z85dec_whole {pol : Policy} {n : Nat} {t : List Byte} (hl : t.length = n) (h : n % 5 = 0)
    (hr : ∀ c ∈ t, inRange c = true) (hs : pol = .strict → ∀ c ∈ t, isZ85 c = true) :
    z85dec pol n t .grant = .answer .ok (4 * n / 5) 0 (decBytes t) := by
  have hrun := (z85decChecked_granted hl).trans (z85decRun_of_inRange hl hr)
  have hwhole : t.take n = t := List.take_of_length_le hl.le
  cases pol with
  | perm => simp [z85dec, h, hrun]
  | strict => simp [z85dec, h, hwhole, firstBad_none.mpr (hs rfl), hrun]

theorem inRange_of_z85decRun_ok {n m x : Nat} {t b : List Byte} (hl : t.length = n)
    (h : z85decRun n t = .answer .ok m x b) : ∀ c ∈ t, inRange c = true := by
  have hwhole : t.take n = t := List.take_of_length_le hl.le
  rw [z85decRun, hwhole] at h
  split at h
  · cases h
  · next hf => exact firstBad_none.mp hf

/-- A decode that is OK under GRANT had whole groups, and every code in range (R94). -/
theorem z85dec_ok {pol : Policy} {n m x : Nat} {t b : List Byte} (hl : t.length = n)
    (h : z85dec pol n t .grant = .answer .ok m x b) :
    n % 5 = 0 ∧ (∀ c ∈ t, inRange c = true) ∧ m = 4 * n / 5 ∧ b = decBytes t := by
  unfold z85dec at h
  split at h
  · cases h
  · next hmod =>
    have hrun : z85decRun n t = .answer .ok m x b := by
      rw [← z85decChecked_granted hl]
      cases pol with
      | perm => exact h
      | strict =>
        dsimp only at h
        split at h
        · cases h
        · exact h
    have hr := inRange_of_z85decRun_ok hl hrun
    rw [z85decRun_of_inRange hl hr] at hrun
    cases hrun
    exact ⟨not_not.mp hmod, hr, rfl, rfl⟩

/-- A decode under PERM with GRANT faults at the least code out of range (R94, R115). -/
theorem z85dec_fault {n x : Nat} {c : Byte} {t : List Byte} (hl : t.length = n) (h : n % 5 = 0)
    (hx : t[x]? = some c) (hc : inRange c = false)
    (hbefore : ∀ y < x, ∀ d, t[y]? = some d → inRange d = true) :
    z85dec .perm n t .grant = .fault x c (decBytes (t.take (5 * (x / 5)))) := by
  have hwhole : t.take n = t := List.take_of_length_le hl.le
  have hbad : firstBad inRange t = some x := firstBad_some.mpr ⟨⟨c, hx, hc⟩, hbefore⟩
  simp [z85dec, h, z85decChecked_granted hl, z85decRun, hwhole, hbad, hx]

end Sys2Proof.Machine
end

section
/-! PROOFS. What the statements about a decoder unit need: the checks of DECODE and DECODE.S, and how the turns of a unit take a DECODE to its fault. -/

namespace Sys2Proof.Machine

/-! ### The checks of DECODE and DECODE.S (R97, R119) -/

theorem outLen_dec_eq {n : Nat} (h : n % 5 = 0) : outLen .dec n = 4 * n / 5 := by
  simp only [outLen, groupOut, groupIn]
  omega

theorem lenOk_dec {n : Nat} (h : n % 5 = 0) : lenOk .dec n = true := by
  simp [lenOk, groupIn, h]

theorem lastChecks_dec_ask {n : Nat} (h : n % 5 = 0) (hpos : 0 < n) :
    lastChecks .dec n = .ask (4 * n / 5) := by
  rw [← outLen_dec_eq h]
  exact if_neg (Nat.ne_of_gt hpos)

/-- The length is checked first, under both policies. -/
theorem decVerdict_badLength {c : Command} (h : c.len % 5 ≠ 0) (strict : Bool) :
    decVerdict strict c = .answer .errLength (c.len % 5) := by
  simp [decVerdict, lenOk, groupIn, h]

theorem verdictOf_decode {n : Nat} (h : n % 5 = 0) (tid : Nat) (bs : List Byte) :
    verdictOf (.decode tid n bs) = lastChecks .dec n := if_pos (lenOk_dec h)

/-- The pre-scan of a command whose bytes are all there answers the first code that is no alphabet
character. -/
theorem verdictOf_decodeS_bad {n x : Nat} (h : n % 5 = 0) (tid : Nat) {bs : List Byte}
    (hl : bs.length = n) (hbad : firstBad isZ85 bs = some x) :
    verdictOf (.decodeS tid n bs) = .answer .errChar x := by
  have hwhole : bs.take n = bs := List.take_of_length_le hl.le
  simp [verdictOf, decVerdict, encode, Instr.len, Instr.input, lenOk_dec h, scanFrom_eq, hwhole, hbad]

theorem verdictOf_decodeS_clean {n : Nat} (h : n % 5 = 0) (tid : Nat) {bs : List Byte}
    (hl : bs.length = n) (hz : ∀ c ∈ bs, isZ85 c = true) :
    verdictOf (.decodeS tid n bs) = lastChecks .dec n := by
  have hwhole : bs.take n = bs := List.take_of_length_le hl.le
  simp [verdictOf, decVerdict, encode, Instr.len, Instr.input, lenOk_dec h, scanFrom_eq, hwhole,
    firstBad_none.mpr hz, hl]

/-- Picking a unit and asking for a buffer answer nothing. -/
theorem pick_allocate_responses {s s₁ s₂ : State} {u j tid : Nat} {us : List Nat} {a : Alloc}
    (hp : pickUnit u us s = (j, s₁)) (ha : allocate tid s₁ = (a, s₂)) : s₂.responses = s.responses := by
  rw [pick_allocate_frame hp ha]

/-! ### EMIT and the end of a command (R99, R100) -/

theorem bytesOf_getElem? (v : U32) {j : Nat} (hj : j < 4) :
    (bytesOf v)[j]? = some (byteOf (v.toNat / 256 ^ (3 - j) % 256)) := by
  match j, hj with
  | 0, _ | 1, _ | 2, _ => rfl
  | 3, _ => simp [bytesOf]

/-- The block once a decode that unit `j` has just started has ended: its OK response with the whole
output, the unit IDLE, and everything else as it was. -/
theorem completed_start_dec {i : Instr} (hw : i.WellFormed) (hmod : i.len % 5 = 0) (j n : Nat) (l : Lane)
    (rest : List Agent) (s : State) :
    s.completed ⟨.dec, j⟩ (l.start (encode i) n) rest = { s with
      turns := rest,
      dec := s.dec.set j
        { regs := { l.regs with st := .idle, tid := i.tid, cmd := opcode i, n := i.len, ip := i.len,
                                opos := 4 * i.len / 5, ph := 0#3, acc := 0#32 },
          inp := .absent, out := .absent },
      responses := s.responses ++
        [{ resp := { tid := i.tid, status := .ok, outLen := 4 * i.len / 5, info := 0 },
           out := Memory.ofBytes (4 * i.len / 5) (decBytes i.input) }] } := by
  rw [State.completed, okDelivery_start (c := encode i) hw, ← outLen_dec_eq hmod]
  rfl

/-! ### The turns of a decoder to its fault (R101, R116, R120) -/

/-- How many turns a decoder needs to come to element `x` and read it, if it reads all before it: the
steps left if `x` were the length, the DONE step counted for the one that reads `x`. -/
def turnsTo (x : Nat) (r : UnitRegs) : Nat := stepsLeft .dec { r with n := x }

/-- Element `x` of the unit's input is `c`, the first code out of range, and it has not been passed. -/
structure FaultAhead (x : Nat) (c : Byte) (l : Lane) : Prop where
  lt : x < l.regs.n
  ip_le : l.regs.ip ≤ x
  read : l.inp.read x = some c
  no_digit : digitOf c = none
  before : ∀ j < x, ∃ b, l.inp.read j = some b ∧ inRange b = true

theorem SameCommand.trans {l₁ l₂ l₃ : Lane} (h : SameCommand l₁ l₂) (h' : SameCommand l₂ l₃) :
    SameCommand l₁ l₃ :=
  ⟨h'.tid.trans h.tid, h'.cmd.trans h.cmd, h'.n.trans h.n, h'.inp.trans h.inp⟩

theorem FaultAhead.of_sameCommand {x : Nat} {c : Byte} {l l' : Lane} (h : FaultAhead x c l)
    (hc : SameCommand l l') (hip : l'.regs.ip ≤ x) : FaultAhead x c l' := by
  refine ⟨hc.n ▸ h.lt, hip, ?_, h.no_digit, ?_⟩
  · rw [hc.inp]; exact h.read
  · rw [hc.inp]; exact h.before

/-- What the step of a decoder is on its way to a code out of range: one turn nearer to it, or the
fault there (R98, R116). -/
inductive StepToFault (x : Nat) (c : Byte) (l : Lane) : UnitStep → Prop
  | advanced (l' : Lane) (hR : Running .dec l') (hrun : l'.regs.st = .run) (hc : SameCommand l l')
      (hip : l'.regs.ip ≤ x) (hs : turnsTo x l'.regs + 1 = turnsTo x l.regs) :
      StepToFault x c l (.moved l')
  | faulted (hip : l.regs.ip = x) (hph : l.regs.ph.toNat < 5) (hs : turnsTo x l.regs = 1) :
      StepToFault x c l (.moved (l.raiseFault c))

/-- A decoder in the middle of the group of element `x` reads `x` in this turn. -/
theorem Running.turnsTo_eq_one {x : Nat} {l : Lane} (h : Running .dec l) (hip : l.regs.ip = x)
    (hph : l.regs.ph.toNat < 5) : turnsTo x l.regs = 1 := by
  have hal := h.aligned
  have hle := h.ph_le_ip
  simp only [groupIn] at hal
  simp only [turnsTo, stepsLeft, groupIn]
  omega

theorem Running.stepToFault {x : Nat} {c : Byte} {l : Lane} (h : Running .dec l)
    (hrun : l.regs.st = .run) (hf : FaultAhead x c l) : StepToFault x c l (unitStep .dec l) := by
  rcases Nat.lt_or_eq_of_le h.ph_le with hph | hph
  · have hacc : phase .dec l.regs = .acc := phase_acc hrun hph (hf.ip_le.trans_lt hf.lt)
    rcases Nat.lt_or_eq_of_le hf.ip_le with hip | hip
    · obtain ⟨b, hb, hbr⟩ := hf.before _ hip
      obtain ⟨d, hd, -⟩ := exists_digit_of_inRange hbr
      rw [unitStep_acc_dec hacc hb hd]
      exact .advanced _ (h.accumulated hph (hip.trans hf.lt) hb (.inr ⟨rfl, d, hd, rfl⟩)) hrun
        ⟨rfl, rfl, rfl, rfl⟩ hip
        (stepsLeft_accumulated (l := { l with regs := { l.regs with n := x } }) _ hph hip)
    · rw [unitStep_acc_fault hacc (hip ▸ hf.read) hf.no_digit]
      exact .faulted hip hph (h.turnsTo_eq_one hip hph)
  · have hw := h.writeAll_emit hph
    rw [unitStep_emit (phase_emit hrun hph), Lane.emit, hw, emitBytes_length]
    exact .advanced _ (h.emitted hph hw) hrun ⟨rfl, rfl, rfl, rfl⟩ hf.ip_le
      (stepsLeft_emitted (r := { l.regs with n := x }) hph h.ph_le_ip hf.ip_le _ _)

/-- A decoder with as many turns as it needs to come to the first code out of range is in FAULT after
them, and has not responded. -/
theorem run_faulted {x m i : Nat} {c : Byte} {rest : List Agent} {s : State} {l : Lane}
    (hR : Running .dec l) (hrun : l.regs.st = .run) (hf : FaultAhead x c l)
    (hl : s.lane? ⟨.dec, i⟩ = some l) (hm : turnsTo x l.regs = m)
    (ht : s.turns = List.replicate m (.unit ⟨.dec, i⟩) ++ rest) :
    ∃ (w : State) (l' : Lane), core.run m s = .next w ∧ w.responses = s.responses ∧
      w.lane? ⟨.dec, i⟩ = some (l'.raiseFault c) ∧ Running .dec l' ∧ SameCommand l l' ∧
      l'.regs.ip = x ∧ l'.regs.ph.toNat < 5 := by
  induction m generalizing s l with
  | zero => simp [turnsTo, stepsLeft] at hm
  | succ m ih =>
    rw [List.replicate_succ, List.cons_append] at ht
    have hl₀ : ({ s with turns := List.replicate m (.unit ⟨.dec, i⟩) ++ rest } : State).lane?
        ⟨.dec, i⟩ = some l := hl
    have hstep := hR.stepToFault hrun hf
    generalize hus : unitStep .dec l = us at hstep
    cases hstep with
    | advanced l₁ hR₁ hrun₁ hc₁ hip₁ hs =>
      obtain ⟨w, l', hw, hresp, hl', hR', hc', hip, hph⟩ :=
        ih hR₁ hrun₁ (hf.of_sameCommand hc₁ hip₁) (State.lane?_setLane_self hl₀) (by omega)
          (State.setLane_turns _ _ _)
      exact ⟨w, l', (core_run_succ (step_unit_moved ht hl hus) m).trans hw, by simpa using hresp, hl',
        hR', hc₁.trans hc', hip, hph⟩
    | faulted hip hph hs =>
      obtain rfl : m = 0 := by omega
      exact ⟨_, l, (core_run_succ (step_unit_moved ht hl hus) 0).trans rfl, by simp,
        State.lane?_setLane_self hl₀, hR, ⟨rfl, rfl, rfl, rfl⟩, hip, hph⟩

/-- A command that has just started has the first code out of range of its input ahead. -/
theorem faultAhead_start {cm : Command} (hl : cm.input.length = cm.len) {x : Nat} {c : Byte}
    (hx : cm.input[x]? = some c) (hc : inRange c = false)
    (hbefore : ∀ y < x, ∀ d, cm.input[y]? = some d → inRange d = true) (n : Nat) (l : Lane) :
    FaultAhead x c (l.start cm n) := by
  have hlt : x < cm.input.length := (List.getElem?_eq_some_iff.mp hx).1
  have hread {j : Nat} (hj : j ≤ x) : (l.start cm n).inp.read j = cm.input[j]? :=
    (Memory.read_ofBytes _ _ j).trans (if_pos (hl ▸ hj.trans_lt hlt))
  refine ⟨hlt.trans_eq hl, Nat.zero_le x, (hread le_rfl).trans hx, (digitOf_eq_none_iff c).mpr hc,
    fun j hj => ?_⟩
  have hj' : cm.input[j]? = some cm.input[j] := List.getElem?_eq_getElem (hj.trans hlt)
  exact ⟨_, (hread hj.le).trans hj', hbefore j hj _ hj'⟩

/-- A decoder that has read nothing yet reads `x` elements, writes the groups before `x`, and reads `x`. -/
theorem turnsTo_start {x : Nat} {r : UnitRegs} (hi : r.ip = 0) : turnsTo x r = x + x / 5 + 1 :=
  stepsLeft_start (r := { r with n := x }) hi

/-- A decoder about to read element `x` has done exactly the groups wholly before it (R26, R116). -/
theorem Running.at_index {x : Nat} {l : Lane} (h : Running .dec l) (hip : l.regs.ip = x)
    (hph : l.regs.ph.toNat < 5) :
    l.regs.ph.toNat = x % 5 ∧ l.regs.opos = 4 * (x / 5) ∧
      l.out = Memory.ofBytes (outLen .dec l.regs.n) (decBytes (l.inp.first (5 * (x / 5)))) := by
  have hal := h.aligned
  have hle := h.ph_le_ip
  have hopos := h.opos_eq
  have hout := h.out_eq
  simp only [groupIn, groupOut, hip] at hal hle hopos
  have hgroups : l.regs.ip - l.regs.ph.toNat = 5 * (x / 5) := by omega
  rw [hgroups] at hout
  exact ⟨by omega, by omega, hout⟩

end Sys2Proof.Machine
end

section
/-! PROOFS. The statements about decoding: its group function and the round trips, the ACCEPT, ACC, EMIT and DONE steps of a decoder, and whole commands to their response or their fault. -/

namespace Sys2Proof.Machine

/-! ### Values -/

/-- Settles O14: accumulation wraps once at the end, and the top byte of 32 bits needs no narrowing. -/
theorem decoderGroupWraps : Obligations.DecoderGroupWraps := by
  unfold Obligations.DecoderGroupWraps
  intro c0 c1 c2 c3 c4 d0 d1 d2 d3 d4 h0 h1 h2 h3 h4
  obtain ⟨hval, hle⟩ := decVal_of_digits h0 h1 h2 h3 h4
  refine ⟨_, hval, rfl, hle, ?_, ?_⟩
  · rw [accDigit_five, wrap32_toNat]
  · have htop (v : Nat) : v % 2 ^ 32 / 256 ^ 3 % 256 = v % 2 ^ 32 / 256 ^ 3 := by omega
    rw [decGroup, hval, Option.map_some, bytesOf, wrap32_toNat, htop]

/-- Settles O15: encGroup gives alphabet characters and the value back, and a canonical group has the
digits of a 32-bit value. -/
theorem canonicalGroupsAreImages : Obligations.CanonicalGroupsAreImages := by
  unfold Obligations.CanonicalGroupsAreImages
  refine ⟨canonicalGroup_iff_exists_encGroup, fun c0 c1 c2 c3 c4 h => ?_⟩
  obtain ⟨v, hv⟩ := (canonicalGroup_iff_exists_encGroup c0 c1 c2 c3 c4).mp h
  obtain ⟨b0, b1, b2, b3, hb, hbe⟩ := be32_bytesOf v
  refine ⟨b0, b1, b2, b3, ?_, hbe.symm ▸ hv⟩
  rw [decGroup, decVal_of_encGroup_eq hv, Option.map_some, wrap32_of_toNat, hb]

/-- Settles O17: every character of the output passes both policies, and its groups decode to the
bytes they were made of. -/
theorem roundTripBytes : Obligations.RoundTripBytes := by
  unfold Obligations.RoundTripBytes
  intro b n hl hmod
  have hlen : (encBytes b).length = 5 * n / 4 := by rw [encBytes_length, hl]; omega
  have hz : ∀ c ∈ encBytes b, isZ85 c = true := fun c hc => isZ85_of_mem_encBytes hc
  refine ⟨encBytes b, z85enc_whole hl hmod, hlen, fun pol => ?_⟩
  rw [z85dec_whole hlen (by omega) (fun c hc => inRange_of_isZ85 c (hz c hc)) (fun _ => hz),
    decBytes_encBytes (hl.symm ▸ hmod)]
  exact congrArg (Result.answer .ok · 0 b) (by omega)

/-- Settles O18: an OK decode gives the bytes of whole groups, which encode to the text only if each
group is canonical. -/
theorem roundTripTextIffCanonical : Obligations.RoundTripTextIffCanonical := by
  unfold Obligations.RoundTripTextIffCanonical
  intro pol t n m b hl h
  obtain ⟨hmod, hr, rfl, rfl⟩ := z85dec_ok hl h
  have hlen : (decBytes t).length = 4 * n / 5 := by rw [decBytes_length hr, hl]; omega
  have hback : 5 * (4 * n / 5) / 4 = n := by omega
  rw [z85enc_whole hlen (by omega), hback, ← encBytes_decBytes_eq_iff (hl.symm ▸ hmod) hr]
  simp

/-! ### ACCEPT -/

/-- Settles O23: the checks of DECODE are the length and the empty text, whatever IN holds. -/
theorem decodeAccepts : Obligations.DecodeAccepts := by
  unfold Obligations.DecodeAccepts
  intro s s1 s2 u us i tid len input hi hp
  have hask (hmod : len % 5 = 0) (hpos : 0 < len) :
      verdictOf (.decode tid len input) = .ask (4 * len / 5) :=
    (verdictOf_decode hmod tid input).trans (lastChecks_dec_ask hmod hpos)
  refine ⟨fun hmod => ?badLength, ?empty, fun hmod hpos ha => ?deny, fun hmod hpos ha => ?grant⟩
  case badLength =>
    exact exec_answered (i := .decode tid len input) hi hp (decVerdict_badLength hmod false)
  case empty =>
    rintro rfl
    exact exec_answered (i := .decode tid 0 input) hi hp (verdictOf_decode rfl tid input)
  case deny =>
    exact exec_denied (i := .decode tid len input) hi hp (hask hmod hpos) ha
  case grant =>
    obtain ⟨l, hl, hidle, -, hexec⟩ :=
      exec_granted (i := .decode tid len input) hi hp (hask hmod hpos) ha
    exact ⟨l, hl, hidle, hexec⟩

/-- Settles O24: after the length the pre-scan finds the least code that is no alphabet character, or
none, and only then the last checks come. -/
theorem decodeStrictAccepts : Obligations.DecodeStrictAccepts := by
  unfold Obligations.DecodeStrictAccepts
  intro s s1 s2 u us i tid len input hi hp hl
  have hask (hmod : len % 5 = 0) (hpos : 0 < len) (hz : ∀ c ∈ input, isZ85 c = true) :
      verdictOf (.decodeS tid len input) = .ask (4 * len / 5) :=
    (verdictOf_decodeS_clean hmod tid hl hz).trans (lastChecks_dec_ask hmod hpos)
  refine ⟨fun hmod => ?badLength, fun x c hmod hx hc hbefore => ?badChar, fun h0 => ?empty,
    fun hmod hpos hz ha => ?deny, fun hmod hpos hz ha => ?grant⟩
  case badLength =>
    exact exec_answered (i := .decodeS tid len input) hi hp (decVerdict_badLength hmod true)
  case badChar =>
    have hbad : firstBad isZ85 input = some x := firstBad_some.mpr ⟨⟨c, hx, hc⟩, hbefore⟩
    exact exec_answered (i := .decodeS tid len input) hi hp (verdictOf_decodeS_bad hmod tid hl hbad)
  case empty =>
    subst h0
    obtain rfl := List.length_eq_zero_iff.mp hl
    exact exec_answered (i := .decodeS tid 0 []) hi hp (verdictOf_decodeS_clean rfl tid rfl nofun)
  case deny =>
    exact exec_denied (i := .decodeS tid len input) hi hp (hask hmod hpos hz) ha
  case grant =>
    obtain ⟨l, hl, hidle, -, hexec⟩ :=
      exec_granted (i := .decodeS tid len input) hi hp (hask hmod hpos hz) ha
    exact ⟨l, hl, hidle, hexec⟩

/-! ### ACC, EMIT and DONE -/

/-- Settles O32: a code has a digit exactly in range, and under the invariant only DECODE lets one
without a digit come this far. -/
theorem decoderAccStep : Obligations.DecoderAccStep := by
  unfold Obligations.DecoderAccStep
  intro s u ts l c ht hl hrun hph hip hc
  have hacc : phase .dec l.regs = .acc := phase_acc hrun hph hip
  refine ⟨fun hlo hhi => ?digit, fun hout => ?fault⟩
  case digit =>
    have hin : inRange c = true := by simp [inRange, hlo, hhi]
    obtain ⟨d, hd, -⟩ := exists_digit_of_inRange hin
    refine ⟨d, hd, fun hz => ?_, step_unit_moved ht hl (unitStep_acc_dec hacc hc hd)⟩
    exact Option.some.inj (hd.symm.trans (digitOf_of_not_isZ85 hlo hhi hz))
  case fault =>
    have hd : digitOf c = none := (digitOf_eq_none_iff c).mpr ((inRange_eq_false_iff c).mpr hout)
    refine ⟨step_unit_moved ht hl (unitStep_acc_fault hacc hc hd), fun hI => ?_⟩
    have hinv : LaneInv .dec l := hI.laneInv (v := ⟨.dec, u⟩) hl
    obtain ⟨-, -, hcmd, -⟩ := (laneInv_fault_iff rfl).mp (hinv.raiseFault hacc hc hd)
    exact hcmd

/-- Settles O33: EMIT is one run of writes, inside the buffer by the room there is. -/
theorem decoderEmitStep : Obligations.DecoderEmitStep := by
  unfold Obligations.DecoderEmitStep
  intro s u ts l ht hl hrun hph hroom
  obtain ⟨m, hm, hstep⟩ := unitStep_emit_moved (k := .dec) (phase_emit hrun hph) hroom
  obtain ⟨-, hsize, hwritten, hother⟩ := Memory.writeAll_cases hm
  refine ⟨m, step_unit_moved ht hl hstep, hsize, Memory.writeAll_wf hm, fun j hj => ?_, hother⟩
  exact (hwritten j hj).trans (bytesOf_getElem? l.regs.acc hj)

/-- Settles O34: DONE is `Lane.finish`, and `opos` there is the output length by R26. -/
theorem decoderDoneStep : Obligations.DecoderDoneStep := by
  unfold Obligations.DecoderDoneStep
  intro s u ts l ht hl hrun hph hip
  refine ⟨step_unit_done ht hl (unitStep_done (phase_done hrun hph hip)), fun hI => ?_⟩
  have hinv : LaneInv .dec l := hI.laneInv (v := ⟨.dec, u⟩) hl
  obtain ⟨hR, -⟩ := (laneInv_run_iff hrun).mp hinv
  rw [(hR.done hph hip).1, outLen_dec_eq hR.len_ok]

/-! ### Whole commands -/

/-- Settles O56: every element has a digit, so the unit's turns are exactly the steps it needs. -/
theorem decodeRunsToZ85dec : Obligations.DecodeRunsToZ85dec := by
  unfold Obligations.DecodeRunsToZ85dec
  intro s s1 s2 u us i tid len input rest hlen hmod hpos hr hi hp ha ht
  obtain ⟨l, t, hl, hexec, hend, hbefore⟩ := exec_run_completed (i := .decode tid len input) hi hp hlen
    ((verdictOf_decode hmod tid input).trans (lastChecks_dec_ask hmod hpos)) ha (fun _ => hr) ht
  refine ⟨l, t, hl, hexec, z85dec_whole hlen hmod hr nofun, ?_, hbefore⟩
  rw [← pick_allocate_responses hp ha]
  exact hend.trans (congrArg _ (completed_start_dec (i := .decode tid len input) hlen hmod i _ l rest s2))

/-- Settles O57: the pre-scan lets the text pass, and an alphabet character has a digit. -/
theorem decodeStrictRunsToZ85dec : Obligations.DecodeStrictRunsToZ85dec := by
  unfold Obligations.DecodeStrictRunsToZ85dec
  intro s s1 s2 u us i tid len input rest hlen hmod hpos hz hi hp ha ht
  have hr : ∀ c ∈ input, inRange c = true := fun c hc => inRange_of_isZ85 c (hz c hc)
  obtain ⟨l, t, hl, hexec, hend, hbefore⟩ := exec_run_completed (i := .decodeS tid len input) hi hp hlen
    ((verdictOf_decodeS_clean hmod tid hlen hz).trans (lastChecks_dec_ask hmod hpos)) ha
    (fun _ => hr) ht
  refine ⟨l, t, hl, hexec, z85dec_whole hlen hmod hr (fun _ => hz), ?_, hbefore⟩
  rw [← pick_allocate_responses hp ha]
  exact hend.trans (congrArg _ (completed_start_dec (i := .decodeS tid len input) hlen hmod i _ l rest s2))

/-- Settles O58: the unit's turns come to the first code out of range and fault there, and R26 says
what the unit has done by then. -/
theorem decodeFaultsAtLeastIndex : Obligations.DecodeFaultsAtLeastIndex := by
  unfold Obligations.DecodeFaultsAtLeastIndex
  intro s s1 s2 u us i tid len x c input rest hlen hmod hx hc hbefore hi hp ha ht
  have hlt : x < len := hlen ▸ (List.getElem?_eq_some_iff.mp hx).1
  obtain ⟨l, -, -, hl₂, hexec⟩ := exec_granted (i := .decode tid len input) hi hp
    ((verdictOf_decode hmod tid input).trans (lastChecks_dec_ask hmod (Nat.zero_lt_of_lt hlt))) ha
  have hturns : s2.turns = s.turns := by rw [pick_allocate_frame hp ha]
  obtain ⟨w, l', hw, hresp, hl', hR, hcmd, hip, hph⟩ := run_faulted
    (Running.start (k := .dec) l hmod (outLen_dec_eq hmod).symm) rfl
    (faultAhead_start (cm := encode (.decode tid len input)) hlen hx hc hbefore _ l)
    (State.lane?_setLane_self hl₂) (turnsTo_start rfl)
    ((State.setLane_turns _ _ _).trans (hturns.trans ht))
  obtain ⟨hphx, hopos, hout⟩ := hR.at_index hip hph
  refine ⟨_, w, hexec, hw, hresp.trans ((State.setLane_responses _ _ _).trans
    (pick_allocate_responses hp ha)), z85dec_fault hlen hmod hx hc hbefore, l'.raiseFault c, hl', rfl,
    rfl, congrArg (·, c) hip, hip, hphx, hopos, hcmd.tid, hcmd.cmd, hcmd.n, hout.trans ?_⟩
  have hn : l'.regs.n = len := hcmd.n
  have hfirst : l'.inp.first (5 * (x / 5)) = input.take (5 * (x / 5)) := by
    rw [hcmd.inp, Lane.start_inp]
    exact hlen ▸ Memory.first_ofBytes (by omega)
  rw [hn, hfirst, outLen_dec_eq hmod]

end Sys2Proof.Machine
end

section
/-! PROOFS. The statements about the length validator: the lengths it admits, and the output length it fixes (R105, R107). -/

namespace Sys2Proof.Machine

theorem lenOk_iff {k : UnitKind} {n : Nat} : lenOk k n = true ↔ n % groupIn k = 0 := by
  rw [lenOk, beq_iff_eq]

/-- The output length loses nothing to rounding when the length is whole groups (R107). -/
theorem groupIn_mul_outLen {k : UnitKind} {n : Nat} (h : n % groupIn k = 0) :
    groupIn k * outLen k n = groupOut k * n := by
  rw [outLen, Nat.mul_left_comm, Nat.mul_div_cancel' (Nat.dvd_of_mod_eq_zero h)]

/-- Settles O20: the validator tests the unit's input group size, 4 or 5. -/
theorem lengthValidator : Obligations.LengthValidator := by
  unfold Obligations.LengthValidator
  exact fun _ => ⟨lenOk_iff, lenOk_iff⟩

/-- Settles O21: an admitted length is whole groups, and each of them has its output group. -/
theorem outputLength : Obligations.OutputLength := by
  unfold Obligations.OutputLength
  intro n
  refine ⟨fun hok => ?enc, fun hok => ?dec⟩
  case enc =>
    have hmod : n % groupIn .enc = 0 := lenOk_iff.mp hok
    exact ⟨groupIn_mul_outLen hmod, outLen_enc_eq hmod⟩
  case dec =>
    have hmod : n % groupIn .dec = 0 := lenOk_iff.mp hok
    exact ⟨groupIn_mul_outLen hmod, outLen_dec_eq hmod⟩

end Sys2Proof.Machine
end

section
/-! PROOFS. The statements about what the block answers by itself and where nothing can move: an illegal command word (R114), the host's answer to an allocation request (R118), and the turn of a unit or of a block with no enabled move (R116, R130). -/

namespace Sys2Proof.Machine

/-! ### The host's answer to an allocation request (R118) -/

theorem allocate_listed {s : State} {t : Nat} {a : Alloc} {before after : List (Nat × Alloc)}
    (hb : ∀ p ∈ before, p.1 ≠ t) (hs : s.answers = before ++ (t, a) :: after) :
    allocate t s = (a, { s with answers := before ++ after }) := by
  simp [allocate, hs, takeAnswer_append hb]

theorem allocate_unlisted {s : State} {t : Nat} (h : ∀ p ∈ s.answers, p.1 ≠ t) :
    allocate t s =
      (if Config.allocGrants s.draws then .grant else .deny, { s with draws := s.draws + 1 }) := by
  simp [allocate, takeAnswer_none h]

/-- Settles O27: the first answer listed for the command is the one taken out, and the free value
stands for either answer when there is none. -/
theorem allocationAnswer : Obligations.AllocationAnswer := by
  unfold Obligations.AllocationAnswer
  intro s t before after a hb
  refine ⟨fun hs => ?listed, fun hs => ?unlisted⟩
  case listed => exact allocate_listed hb hs
  case unlisted =>
    have hnone : ∀ p ∈ s.answers, p.1 ≠ t := hs ▸ hb
    rw [allocate_unlisted hnone]
    cases Config.allocGrants s.draws with
    | true => exact .inl rfl
    | false => exact .inr rfl

/-! ### Illegal command words (R58, R114) -/

theorem exists_decode_error_of_not_legalWord {c : Command} (h : ¬ LegalWord c.cmd) :
    ∃ e, decode c = .error e := by
  cases hd : decode c with
  | ok i => exact absurd (legalWord_of_decode_ok hd) h
  | error e => exact ⟨e, rfl⟩

/-- An illegal word is answered in the host's turn, whether the host issues or posts it. -/
theorem hostMove_illegal {s : State} {a : HostAct} {c : Command} {rest : List HostAct}
    {e : IllegalWord} (ha : a = .issue c ∨ a = .post c) (hs : s.script = a :: rest)
    (hd : decode c = .error e) :
    (hostMove s).outcome = .next (answerIllegal c { s with script := rest }) := by
  rcases ha with rfl | rfl <;> simp [hostMove, hs, hd, Move.outcome]

/-- Settles O4: the decoder refuses the word, so the host's turn is the dispatcher's answer to it. -/
theorem illegalCommandAnswered : Obligations.IllegalCommandAnswered := by
  unfold Obligations.IllegalCommandAnswered
  intro s a c rest ts ha ht hs hw
  obtain ⟨e, hd⟩ := exists_decode_error_of_not_legalWord hw
  rw [step_host ht, hostMove_illegal (s := { s with turns := ts }) ha hs hd]
  rfl

/-! ### Where nothing can move (R116, R130) -/

theorem chooseAgent_quiet {s : State} (ht : s.turns = []) (he : enabledAgents s = []) :
    chooseAgent s = (none, s) := by
  simp [chooseAgent, ht, he]

/-- Settles O9: with no turn named and no agent enabled there is none to choose. -/
theorem quietBlockStays : Obligations.QuietBlockStays := by
  unfold Obligations.QuietBlockStays
  intro s ht he
  rw [step_eq, chooseAgent_quiet ht he]

theorem unitEnabled_of_mem_enabledAgents {s : State} {u : UnitId} (h : .unit u ∈ enabledAgents s) :
    unitEnabled u s = true := by
  simp only [enabledAgents, List.mem_append, List.mem_map, List.mem_filter] at h
  rcases h with ((hhost | ⟨k, -, hk⟩) | ⟨i, ⟨-, hen⟩, hi⟩) | ⟨i, ⟨-, hen⟩, hi⟩
  · split at hhost <;> simp at hhost
  · cases hk
  · cases hi; exact hen
  · cases hi; exact hen

theorem unitEnabled_eq_false_of_not_run {s : State} {u : UnitId} {l : Lane} (hl : s.lane? u = some l)
    (hr : l.regs.st ≠ .run) : unitEnabled u s = false := by
  simp [unitEnabled, hl, phase_stuck hr]

theorem unitMove_of_not_run {s : State} {u : UnitId} {l : Lane} (hl : s.lane? u = some l)
    (hr : l.regs.st ≠ .run) : unitMove u s = .next s := by
  simp [unitMove, hl, unitStep_stuck (phase_stuck hr)]

/-- Settles O35: outside RUN no step of the unit is enabled, so its turn does nothing and it is no
agent that can move. -/
theorem faultedOrIdleUnitHasNoStep : Obligations.FaultedOrIdleUnitHasNoStep := by
  unfold Obligations.FaultedOrIdleUnitHasNoStep
  intro s u ts l ht hl hr
  refine ⟨?turn, fun hu => ?notEnabled⟩
  case turn =>
    rw [step_unit ht]
    exact unitMove_of_not_run ((State.lane?_congr rfl rfl u).trans hl) hr
  case notEnabled =>
    obtain ⟨a, hmem, ha⟩ := List.mem_filterMap.mp hu
    cases a with
    | host => cases ha
    | dispatcher k => cases ha
    | unit v =>
      cases ha
      have hen := unitEnabled_of_mem_enabledAgents hmem
      rw [unitEnabled_eq_false_of_not_run hl hr] at hen
      cases hen

end Sys2Proof.Machine
end

section
/-! PROOFS. The statement about final states: work the block has not finished keeps it from being final (R147). -/

namespace Sys2Proof.Machine

/-- A unit the block names is among its encoders or its decoders; the converse is
`State.mem_enc_append_dec`. -/
theorem State.mem_enc_append_dec_of_lane? {s : State} {u : UnitId} {l : Lane}
    (h : s.lane? u = some l) : l ∈ s.enc ++ s.dec := by
  obtain ⟨k, i⟩ := u
  have hm : l ∈ s.lanes k := State.mem_lanes_iff.mpr ⟨i, h⟩
  cases k with
  | enc => exact List.mem_append_left _ hm
  | dec => exact List.mem_append_right _ hm

/-- Settles O49: a final state holds no command, and every unit it names is IDLE. -/
theorem unfinishedIsNotFinal : Obligations.UnfinishedIsNotFinal := by
  unfold Obligations.UnfinishedIsNotFinal
  rintro s (⟨u, l, hl, hbusy⟩ | hheld) ⟨hnone, hidle⟩
  · exact hbusy (hidle l (State.mem_enc_append_dec_of_lane? hl))
  · exact hheld hnone

end Sys2Proof.Machine
end
